-- ==== Sys2Proof/Word.lean ====
section
/-! DEFINITION. The two word types of the block: a byte of buffer RAM and a 32-bit register or command word. -/

namespace Sys2Proof

/-- One byte of buffer RAM (10_state.md R31). -/
abbrev Byte := BitVec 8

/-- A CSR's value, a command word, or the value of an access of up to four bytes (10_state.md R22, 30_encoding.md R70).
An element of one or two bytes is held in it zero-extended. -/
abbrev Word := BitVec 32

end Sys2Proof
end

