-- ==== Sys2Proof/Syntax.lean ====
section
/-! DEFINITION. The commands of the block, one constructor per row of spec/opcode_table.json (30_encoding.md R74), the
reasons a word is no command, and the pseudo-instructions. -/

namespace Sys2Proof

/-- A command with its operands from the word. Every other operand comes from a CSR (30_encoding.md R77). -/
inductive Instr where
  /-- int8 to uint8, 40_sample_width.md R104. -/
  | i8tou8
  /-- uint8 to int8, R105. -/
  | u8toi8
  /-- int16 to int8 pairs, R106. -/
  | i16toi8
  /-- int8 pairs to int16, R107. -/
  | i8toi16
  /-- Generic conversion between two type codes (STYPE, then DTYPE), R108. A code is any of 0 to 15 here; which codes
  name a supported type is checked when the command executes (30_encoding.md R76, R78). -/
  | cvt (stype dtype : Nat)
  /-- Read one bit plane, 41_bitplane.md R131. A plane is any of 0 to 255 here (30_encoding.md R75). -/
  | getbp (plane : Nat)
  /-- Write one bit plane, R132. -/
  | setbp (plane : Nat)
  /-- Write one bit plane of the leading elements, R133. -/
  | setbpp (plane : Nat)
  /-- Embed a message, 42_framecodec.md R153. -/
  | fenc (plane : Nat)
  /-- Extract a message, R155. -/
  | fdec (plane : Nat)
  deriving DecidableEq, Repr

/-- Why a word decodes to ILLEGAL (30_encoding.md R78, R79). The block does not tell the two apart: each completes with
ILLEGAL_CMD. -/
inductive Illegal where
  /-- An opcode that R74 does not list. -/
  | unlistedOpcode
  /-- A listed opcode with a nonzero reserved bit. -/
  | reservedBits
  deriving DecidableEq, Repr

/-- The pseudo-instructions of 30_encoding.md R82. -/
inductive Pseudo where
  | i16tou8
  | u8toi16
  | copyInt8
  | copyUint8
  | copyInt16
  | getlsb
  | setlsb
  | setlsbp
  deriving DecidableEq, Repr

end Sys2Proof
end

