-- ==== Sys2Proof/WellFormed.lean ====
section
/-! DEFINITION. Which commands fit their fields: a plane in eight bits, a type code in four (30_encoding.md R71, R72;
R81: "The assembler refuses a plane above 255 or a raw type code above 15, since these do not fit the field"). -/

namespace Sys2Proof

/-- The PLANE field is eight bits wide (30_encoding.md R71). -/
def planeFits (plane : Nat) : Bool := decide (plane < 256)

/-- STYPE and DTYPE are four bits wide (30_encoding.md R72). -/
def typeCodeFits (code : Nat) : Bool := decide (code < 16)

/-- The operands of a command fit their fields. -/
def Instr.wellFormed : Instr → Bool
  | .i8tou8 => true
  | .u8toi8 => true
  | .i16toi8 => true
  | .i8toi16 => true
  | .cvt stype dtype => typeCodeFits stype && typeCodeFits dtype
  | .getbp plane => planeFits plane
  | .setbp plane => planeFits plane
  | .setbpp plane => planeFits plane
  | .fenc plane => planeFits plane
  | .fdec plane => planeFits plane

end Sys2Proof
end

