-- ==== Sys2Proof/Decode.lean ====
section
/-! DEFINITION. The decoder, total on all 2^32 words (30_encoding.md R78), the encoder (R70 to R74), and the host's
question about one row of the opcode table. -/

namespace Sys2Proof

/-- Bits [lo + len - 1 : lo] of a word, as a number (00_scope.md R14). -/
def field (w : Word) (lo len : Nat) : Nat := (w.extractLsb' lo len).toNat

/-- OP, bits 7:0 of every format (30_encoding.md R70). -/
def opField (w : Word) : Nat := field w 0 8

/-- PLANE, bits 15:8 of format P, zero-extended (30_encoding.md R71, R75). -/
def planeField (w : Word) : Nat := field w 8 8

/-- STYPE, bits 11:8 of format T (30_encoding.md R72). -/
def stypeField (w : Word) : Nat := field w 8 4

/-- DTYPE, bits 15:12 of format T (30_encoding.md R72). -/
def dtypeField (w : Word) : Nat := field w 12 4

/-- Format N: bits 31:8 reserved, must be 0 (30_encoding.md R73). -/
def decodeN (w : Word) (i : Instr) : Except Illegal Instr :=
  if field w 8 24 = 0 then .ok i else .error .reservedBits

/-- Formats P and T: bits 31:16 reserved, must be 0 (30_encoding.md R71, R72). -/
def decodeHalf (w : Word) (i : Instr) : Except Illegal Instr :=
  if field w 16 16 = 0 then .ok i else .error .reservedBits

/-- The decoder of 30_encoding.md R78. Type codes and the plane range are not checked here. -/
def decode (w : Word) : Except Illegal Instr :=
  let op := opField w
  if op = 0x10 then decodeN w .i8tou8
  else if op = 0x11 then decodeN w .u8toi8
  else if op = 0x12 then decodeN w .i16toi8
  else if op = 0x13 then decodeN w .i8toi16
  else if op = 0x14 then decodeHalf w (.cvt (stypeField w) (dtypeField w))
  else if op = 0x20 then decodeHalf w (.getbp (planeField w))
  else if op = 0x21 then decodeHalf w (.setbp (planeField w))
  else if op = 0x22 then decodeHalf w (.setbpp (planeField w))
  else if op = 0x30 then decodeHalf w (.fenc (planeField w))
  else if op = 0x31 then decodeHalf w (.fdec (planeField w))
  else .error .unlistedOpcode

/-- The opcode of a command (30_encoding.md R74). -/
def Instr.opcode : Instr → Nat
  | .i8tou8 => 0x10
  | .u8toi8 => 0x11
  | .i16toi8 => 0x12
  | .i8toi16 => 0x13
  | .cvt _ _ => 0x14
  | .getbp _ => 0x20
  | .setbp _ => 0x21
  | .setbpp _ => 0x22
  | .fenc _ => 0x30
  | .fdec _ => 0x31

/-- Bits 15:8 of the command's word, as a number: PLANE, or DTYPE above STYPE, or 0 (30_encoding.md R71 to R73). -/
def Instr.operandByte : Instr → Nat
  | .i8tou8 => 0
  | .u8toi8 => 0
  | .i16toi8 => 0
  | .i8toi16 => 0
  | .cvt stype dtype => 16 * dtype + stype
  | .getbp plane => plane
  | .setbp plane => plane
  | .setbpp plane => plane
  | .fenc plane => plane
  | .fdec plane => plane

/-- The word of a well-formed command (30_encoding.md R74): the opcode in bits 7:0, the operand fields above it, every
reserved bit 0. -/
def encode (i : Instr) : Word := BitVec.ofNat 32 (256 * i.operandByte + i.opcode)

/-- The host's question: the instruction read from a word of `nbits` bits, every bit above them 0. -/
def decodeTableWord (nbits w : Nat) : Option Instr :=
  match decode ((BitVec.ofNat nbits w).setWidth 32) with
  | .ok i => some i
  | .error _ => none

end Sys2Proof
end

