-- ==== Sys2Proof/Config.lean ====
section
/-! DEFINITION. What an instance of the block fixes, and the free values: what the RAM holds after a reset, and where a
platform maps the two address spaces. -/

namespace Sys2Proof.Config

/-- The reference instance's BUF_BYTES (00_scope.md R10). State carries the parameter itself, so that every statement
about all states holds for every instance; State.reset holds this one (DESIGN CHOICE, log entry 2). -/
def referenceBufBytes : Nat := 65536

/-- The largest BUF_BYTES an instance may have (00_scope.md R10). -/
def maxBufBytes : Nat := 4294967296

/-- FREE VALUE (log entry 1). The byte that the buffer RAM holds at an offset after a reset, until something writes it:
"each byte is an arbitrary value that the model draws and a proof must quantify over" (10_state.md R31,
70_reset_and_hazards.md R232). The first argument numbers the draw (one at power-up, a new one at every reset), the
second is the byte offset. It has no body: no proof knows any value of it. -/
opaque ramDraw : Nat → Nat → Byte

/-- OPEN PARAMETER (20_memory.md R58): where a platform maps the CSR space. No rule of the block reads it. -/
opaque bpcCsrBase : Nat

/-- OPEN PARAMETER (20_memory.md R58): where a platform maps the RAM space. No rule of the block reads it. -/
opaque bpcRamBase : Nat

end Sys2Proof.Config
end

