-- ==== Sys2Proof/Machine/State.lean ====
section
/-! DEFINITION. The whole state of the block as plain data (10_state.md R20), the host's moves, the reasons a step
stops, and the state right after reset (70_reset_and_hazards.md R230). -/

namespace Sys2Proof.Machine

/-- The error codes a command can end with (60_exceptions.md R200). Codes 6 to 15 are never produced. -/
inductive ErrCode where
  /-- 0: no error. -/
  | none
  /-- 1: the latched word decodes to ILLEGAL. -/
  | illegalCmd
  /-- 2: STYPE or DTYPE is not 0, 1 or 2. -/
  | unsupportedType
  /-- 3: PLANE >= PIX_W. -/
  | invalidPlane
  /-- 4: CHANNELS = 0, or COUNT mod CHANNELS is not 0. -/
  | shape
  /-- 5: an operand region is out of range. -/
  | outOfRange
  deriving DecidableEq, Repr

/-- The stored fields of STATUS (10_state.md R24). Its other bits read 0; Status.toWord gives the register. -/
structure Status where
  /-- An issued command is pending in the engine. -/
  busy : Bool
  /-- The last issued command has completed. -/
  done : Bool
  /-- The last completed command ended with an error. -/
  err : Bool
  /-- The last completed command succeeded and discarded input (10_state.md R25). -/
  trunc : Bool
  /-- The error code of the last completed command. -/
  errCode : ErrCode
  deriving DecidableEq, Repr

/-- The seven operand registers (10_state.md R28). Only host CSR writes write them (R21). -/
structure OperandRegs where
  srcAddr : Word
  valAddr : Word
  dstAddr : Word
  count : Word
  changed : Word
  channels : Word
  msgLen : Word
  deriving DecidableEq, Repr

/-- The registers of the CSR space (10_state.md R22). -/
inductive Csr where
  | id
  | status
  | cmd
  | cfg
  | srcAddr
  | valAddr
  | dstAddr
  | count
  | changed
  | channels
  | msgLen
  | resultCount
  | lastCmd
  deriving DecidableEq, Repr

/-- One move of the host (60_exceptions.md R215, 30_encoding.md R83). An offset or a width is any number here: which
accesses the port admits is 20_memory.md R52 and R53. -/
inductive HostOp where
  /-- A read of `width` bytes at a CSR-space offset. -/
  | readCsr (offset width : Nat)
  /-- A write of `width` bytes at a CSR-space offset. -/
  | writeCsr (offset width : Nat) (v : Word)
  /-- A read of `width` bytes at a RAM-space offset. -/
  | readRam (offset width : Nat)
  /-- A write of the low `width` bytes of `v` at a RAM-space offset. -/
  | writeRam (offset width : Nat) (v : Word)
  /-- Poll STATUS until BUSY = 0, one poll a step. -/
  | wait
  /-- Assert the reset input (70_reset_and_hazards.md R230). -/
  | reset
  deriving DecidableEq, Repr

/-- The two agents (00_scope.md R7). -/
inductive Agent where
  | host
  | engine
  deriving DecidableEq, Repr

/-- What surrounds the block in a run. Not state of the block (00_scope.md R8; log entries 3 and 4): the MODEL's own
fields, which no command reads or writes. -/
structure Env where
  /-- The host accesses still to be made, in program order. -/
  script : List HostOp
  /-- Which agent moves at each of the next steps taken while a command is pending; the engine when it is used up. -/
  turns : List Agent
  /-- The values the host has read, the latest first. -/
  replies : List Word
  deriving DecidableEq, Repr

/-- The bytes of buffer RAM written since the last reset, by strictly rising offset. What an unlisted byte reads as is
State.byteAt's (log entry 1). -/
abbrev Memory := List Host.Cell

/-- The state of the block (10_state.md R20), and the model's own fields ramEpoch, bufBytes and env. -/
structure State where
  /-- STATUS (R24). -/
  status : Status
  /-- CFG.PIXW (R27), the one stored bit of CFG: false for 8-bit pixels, true for 16-bit pixels. -/
  pixw : Bool
  /-- SRC_ADDR, VAL_ADDR, DST_ADDR, COUNT, CHANGED, CHANNELS, MSG_LEN (R28). -/
  opnd : OperandRegs
  /-- RESULT_COUNT (R29). -/
  resultCount : Word
  /-- LAST_CMD, the engine's latched command (R30). -/
  lastCmd : Word
  /-- The buffer RAM (R31). -/
  ram : Memory
  /-- MODEL'S OWN: which draw the unwritten RAM bytes come from (70_reset_and_hazards.md R232, log entry 1). -/
  ramEpoch : Nat
  /-- MODEL'S OWN: the parameter BUF_BYTES (00_scope.md R10, log entry 2). -/
  bufBytes : Nat
  /-- MODEL'S OWN: the host's side of the run (log entries 3 and 4). -/
  env : Env
  deriving DecidableEq, Repr

/-- Why a step faults: never. The block has no trap and nothing stops it: an error completes the command with a code
(60_exceptions.md R203, R206), and an access that has no meaning is a Refusal. -/
inductive Fault where
  deriving DecidableEq, Repr

/-- Why a step has no meaning. -/
inductive Refusal where
  /-- An instruction without a meaning, by its mnemonic: raised by an arm of exec. No arm raises it. Safe. -/
  | notModelled (mnemonic : String)
  /-- Raised by a host CSR access of a width other than 4, or at an offset that is not a multiple of 4 or lies above
  0xFFC: "the host step has no meaning" (20_memory.md R52). Safe. -/
  | csrAccess
  /-- Raised by a host RAM access of a width other than 1, 2 or 4, or one reaching past BUF_BYTES (20_memory.md R53).
  Safe. -/
  | ramAccess
  /-- Raised by a host CSR write, RAM read or RAM write while STATUS.BUSY = 1 (70_reset_and_hazards.md R236). Safe. -/
  | busyHazard
  deriving DecidableEq, Repr

/-- What a step answers. -/
abbrev Outcome := Host.Outcome State Fault Refusal

/-- STATUS after reset (10_state.md R24). -/
def Status.reset : Status :=
  { busy := false, done := false, err := false, trunc := false, errCode := .none }

/-- The operand registers after reset (10_state.md R28). -/
def OperandRegs.reset : OperandRegs :=
  { srcAddr := 0, valAddr := 0, dstAddr := 0, count := 0, changed := 0, channels := 0, msgLen := 0 }

/-- A run that has nothing left to do (DESIGN CHOICE, log entries 3 and 4). -/
def Env.reset : Env := { script := [], turns := [], replies := [] }

/-- The machine right after reset (70_reset_and_hazards.md R230, R232, R233): every CSR at its reset value, no RAM byte
written, the engine idle. The reference instance's BUF_BYTES, the first draw of the RAM and an empty environment are
DESIGN CHOICES (log entries 1 to 4). -/
def State.reset : State :=
  { status := Status.reset, pixw := false, opnd := OperandRegs.reset, resultCount := 0, lastCmd := 0,
    ram := [], ramEpoch := 0, bufBytes := Config.referenceBufBytes, env := Env.reset }

end Sys2Proof.Machine
end

