-- ==== Sys2Proof/Machine/Ops.lean ====
section
/-! DEFINITION. The named operations over the buffer RAM and the registers: byte and little-endian accesses, the bit
primitives, command issue, success completion, and error completion, which is all the block has for an exception. -/

namespace Sys2Proof.Machine

/-! ### The buffer RAM as data -/

/-- The byte written at an offset since the last reset, if any. -/
def Memory.find? (m : Memory) (a : Nat) : Option Byte :=
  match m with
  | [] => none
  | (b, v) :: rest => if a = b then some v else Memory.find? rest a

/-- Write one byte, keeping the offsets strictly rising. -/
def Memory.write (m : Memory) (a : Nat) (v : Byte) : Memory :=
  match m with
  | [] => [(a, v)]
  | (b, u) :: rest =>
    if a < b then (a, v) :: (b, u) :: rest
    else if a = b then (a, v) :: rest
    else (b, u) :: Memory.write rest a v

/-- Every listed offset lies above `lo` and they rise strictly. -/
def Memory.risingFrom (lo : Nat) (m : Memory) : Bool :=
  match m with
  | [] => true
  | (b, _) :: rest => decide (lo < b) && Memory.risingFrom b rest

/-- The one canonical form of a memory: strictly rising offsets. An unlisted byte is one that nothing has written since
the reset, and no entry says that, so there is no entry to leave out (log entry 1). -/
def Memory.wf (m : Memory) : Bool :=
  match m with
  | [] => true
  | (b, _) :: rest => Memory.risingFrom b rest

/-- Every listed offset is one the RAM has (10_state.md R31). -/
def Memory.below (m : Memory) (bound : Nat) : Bool :=
  m.all (fun c => decide (c.1 < bound))

/-- MemWrite (00_scope.md R16, 20_memory.md R50): the `n` low bytes of `v`, the least significant at the lowest
offset. -/
def Memory.writeLE (m : Memory) (a n : Nat) (v : Word) : Memory :=
  match n with
  | 0 => m
  | k + 1 => Memory.writeLE (m.write a (v.setWidth 8)) (a + 1) k (v >>> 8)

/-- ElemW for elements 0 to n-1 in turn (00_scope.md R16): element i of `size` bytes is `lane i`, written at
base + i*size. -/
def Memory.writeElems (m : Memory) (base size : Nat) (lane : Nat → Word) (n : Nat) : Memory :=
  match n with
  | 0 => m
  | k + 1 => (Memory.writeElems m base size lane k).writeLE (base + k * size) size (lane k)

/-! ### Reading a state's RAM -/

/-- The byte of buffer RAM at an offset: the last one written there, or the reset draw if there was none
(20_memory.md R60). This is the one definition of what an unlisted offset reads as. -/
def State.byteAt (s : State) (a : Nat) : Byte :=
  (s.ram.find? a).getD (Config.ramDraw s.ramEpoch a)

/-- MemRead (00_scope.md R16, 20_memory.md R50): `n` bytes as an unsigned value, the least significant at the lowest
offset. -/
def State.memRead (s : State) (a n : Nat) : Word :=
  match n with
  | 0 => 0
  | k + 1 => (s.byteAt a).setWidth 32 ||| (s.memRead (a + 1) k <<< 8)

/-- Elem (00_scope.md R16): element `i` of `size` bytes of the buffer at `base`. -/
def State.elem (s : State) (base i size : Nat) : Word := s.memRead (base + i * size) size

/-! ### Bits of an element -/

/-- bit(v, p), that is (v >> p) & 1 (00_scope.md R16). -/
def bit (v : Word) (p : Nat) : Word := (v >>> p) &&& 1

/-- (e & ~(1 << p)) | (t << p) for a bit t of 0 or 1 (41_bitplane.md R132). -/
def setBit (e : Word) (p : Nat) (t : Word) : Word := (e &&& ~~~((1 : Word) <<< p)) ||| (t <<< p)

/-! ### The life cycle of a command -/

/-- Command issue (10_state.md R33). No check of the word is made here. -/
def State.issue (s : State) (w : Word) : State :=
  { s with
    lastCmd := w
    status := { busy := true, done := false, err := false, trunc := false, errCode := .none } }

/-- complete(n, t), success completion (60_exceptions.md R202). -/
def State.complete (s : State) (n : Nat) (t : Bool) : State :=
  { s with
    resultCount := BitVec.ofNat 32 n
    status := { busy := false, done := true, err := false, trunc := t, errCode := .none } }

/-- raise E, error completion (60_exceptions.md R203): the block's only exception. It writes no RAM and changes no other
register; there is nothing to return from (R207), the next issue clears it. -/
def State.raise (s : State) (e : ErrCode) : State :=
  { s with
    resultCount := 0
    status := { busy := false, done := true, err := true, trunc := false, errCode := e } }

/-- The reset event (70_reset_and_hazards.md R230 to R232): every CSR at its reset value, a pending command abandoned, the
RAM a new draw. What surrounds the block is no part of it. -/
def State.assertReset (s : State) : State :=
  { s with
    status := Status.reset
    pixw := false
    opnd := OperandRegs.reset
    resultCount := 0
    lastCmd := 0
    ram := []
    ramEpoch := s.ramEpoch + 1 }

end Sys2Proof.Machine
end

