-- ==== Sys2Proof/Machine/Operands.lean ====
section
/-! DEFINITION. The operand forms: the region check, pixel widths, sample types and the maps between them, the plane
values, the message bit stream and the image's capacity. -/

namespace Sys2Proof.Machine

/-! ### Regions (20_memory.md R54) -/

/-- inRange(a, L): L = 0 or a + L <= BUF_BYTES, in unbounded integers. -/
def State.inRange (s : State) (a len : Nat) : Bool := decide (len = 0 ∨ a + len ≤ s.bufBytes)

/-- Every region (offset, length) is in range, checked in the order given. -/
def State.allInRange (s : State) (regions : List (Nat × Nat)) : Bool :=
  regions.all (fun r => s.inRange r.1 r.2)

/-! ### Operand registers as unsigned numbers (30_encoding.md R77) -/

def State.src (s : State) : Nat := s.opnd.srcAddr.toNat
def State.val (s : State) : Nat := s.opnd.valAddr.toNat
def State.dst (s : State) : Nat := s.opnd.dstAddr.toNat
def State.count (s : State) : Nat := s.opnd.count.toNat
def State.changed (s : State) : Nat := s.opnd.changed.toNat
def State.channels (s : State) : Nat := s.opnd.channels.toNat
def State.msgLen (s : State) : Nat := s.opnd.msgLen.toNat

/-! ### Pixel elements (00_scope.md R9, 10_state.md R27) -/

/-- PIX_W, the pixel width in bits. -/
def State.pixW (s : State) : Nat := if s.pixw then 16 else 8

/-- PIX_B = PIX_W / 8, the element size in bytes. -/
def State.pixB (s : State) : Nat := if s.pixw then 2 else 1

/-- The legal planes: 0 <= plane < PIX_W (00_scope.md R13). -/
def State.planeOk (s : State) (plane : Nat) : Bool := decide (plane < s.pixW)

/-- A plane value counts as 1 when the whole element is nonzero (41_bitplane.md R132). -/
def truth (v : Word) : Word := if v = 0 then 0 else 1

/-! ### Samples (30_encoding.md R76, 40_sample_width.md R101 to R103) -/

/-- The three types the reinterpreter converts (00_scope.md R12). -/
inductive SampleType where
  | int8
  | uint8
  | int16
  deriving DecidableEq, Repr

/-- The supported type codes (30_encoding.md R76): 0 int8, 1 uint8, 2 int16; no other. -/
def sampleType? (code : Nat) : Option SampleType :=
  if code = 0 then some .int8
  else if code = 1 then some .uint8
  else if code = 2 then some .int16
  else none

/-- flip(b) = b ^ 0x80: the int8-to-uint8 map and its inverse on bit patterns (40_sample_width.md R101). -/
def flip (b : Byte) : Byte := b ^^^ 0x80#8

/-- Bits 15:8 of a halfword, the first byte of split (40_sample_width.md R102). -/
def highByte (h : Word) : Byte := h.extractLsb' 8 8

/-- Bits 7:0 of a halfword, the second byte of split (40_sample_width.md R102). -/
def lowByte (h : Word) : Byte := h.extractLsb' 0 8

/-- join(hi, lo): the high byte sign-extended to 16 bits and shifted by 8, or the low byte zero-extended, at 16 bits
(40_sample_width.md R103). -/
def join (hi lo : Byte) : BitVec 16 := (hi.signExtend 16 <<< 8) ||| lo.setWidth 16

/-! ### Frames (42_framecodec.md R150, R151) -/

/-- The capacity in bits of an image of n elements, a whole number of bytes. -/
def capacity (n : Nat) : Nat := n / 8 * 8

/-- The SHAPE check: at least one channel, and a whole number of pixels. -/
def State.shapeOk (s : State) : Bool := decide (s.channels ≠ 0 ∧ s.count % s.channels = 0)

/-- mbit(k): bit k of the message at VAL_ADDR, most significant bit first in each byte. -/
def State.messageBit (s : State) (k : Nat) : Word := bit (s.memRead (s.val + k / 8) 1) (7 - k % 8)

/-- One byte packed from plane bits, `bits 0` highest (42_framecodec.md R155): v | (bit << (7 - k)) for k from 0 to
n-1. -/
def packBits (bits : Nat → Word) (n : Nat) : Word :=
  match n with
  | 0 => 0
  | k + 1 => packBits bits k ||| (bits k <<< (7 - k))

/-! ### The end every command rule shares -/

/-- What every command rule does once its other checks have passed (40_sample_width.md R104 and the rules after it): if
any region is out of range it raises OUT_OF_RANGE; else it writes `lanes` elements of `size` bytes at DST_ADDR, element i
being `lane i`, and completes with count `n` and truncation flag `t`. The lanes are read from the state before the step,
so every read is of the snapshot (00_scope.md R17, 20_memory.md R57). -/
def State.deliver (s : State) (regions : List (Nat × Nat)) (size lanes : Nat) (lane : Nat → Word) (n : Nat) (t : Bool) :
    State :=
  if s.allInRange regions then
    State.complete { s with ram := s.ram.writeElems s.dst size lane lanes } n t
  else s.raise .outOfRange

end Sys2Proof.Machine
end

