-- ==== Sys2Proof/Machine/Flags.lean ====
section
/-! DEFINITION. The STATUS register as software reads it, and when each command sets TRUNC (10_state.md R24, R25). -/

namespace Sys2Proof.Machine

/-- The number of an error code (60_exceptions.md R200). -/
def ErrCode.code (e : ErrCode) : Word :=
  match e with
  | .none => 0
  | .illegalCmd => 1
  | .unsupportedType => 2
  | .invalidPlane => 3
  | .shape => 4
  | .outOfRange => 5

/-- One bit of a register. -/
def flagBit (b : Bool) (i : Nat) : Word := (if b then 1 else 0) <<< i

/-- STATUS as a word (10_state.md R24): BUSY bit 0, DONE bit 1, ERR bit 2, TRUNC bit 3, ERRCODE bits 11:8, all other bits
0. -/
def Status.toWord (st : Status) : Word :=
  flagBit st.busy 0 ||| flagBit st.done 1 ||| flagBit st.err 2 ||| flagBit st.trunc 3 ||| (st.errCode.code <<< 8)

/-- TRUNC of a widening to int16: an odd trailing byte was dropped (40_sample_width.md R107). -/
def wideningTrunc (n : Nat) : Bool := decide (n % 2 = 1)

/-- TRUNC of FENC: the message has more bits than the capacity (42_framecodec.md R153). -/
def embedTrunc (msgLen n : Nat) : Bool := decide (8 * msgLen > capacity n)

/-- TRUNC of FDEC: trailing plane bits were not packed (42_framecodec.md R155). -/
def extractTrunc (n : Nat) : Bool := decide (n % 8 ≠ 0)

end Sys2Proof.Machine
end

