-- ==== Sys2Proof/Machine/BitPlane.lean ====
section
/-! DEFINITION. The bit-plane family: GETBP, SETBP and SETBPP (41_bitplane.md). -/

namespace Sys2Proof.Machine

/-- The length in bytes of a pixel operand, COUNT*PIX_B (20_memory.md R54). -/
def State.pixelBytes (s : State) : Nat := s.count * s.pixB

/-- The plane check, made first (41_bitplane.md R130): PLANE >= PIX_W raises INVALID_PLANE. -/
def State.withPlane (s : State) (plane : Nat) (rest : State) : State :=
  if s.planeOk plane then rest else s.raise .invalidPlane

/-- Source element `i` with plane `p` set to the truth of plane value `i` (41_bitplane.md R132). -/
def State.planeWritten (s : State) (p i : Nat) : Word :=
  setBit (s.elem s.src i s.pixB) p (truth (s.elem s.val i s.pixB))

/-- GETBP (41_bitplane.md R131). -/
def execGetbp (plane : Nat) (s : State) : Outcome :=
  .next (s.withPlane plane
    (s.deliver [(s.src, s.pixelBytes), (s.dst, s.pixelBytes)] s.pixB s.count
      (fun i => bit (s.elem s.src i s.pixB) plane) s.count false))

/-- SETBP (41_bitplane.md R132). -/
def execSetbp (plane : Nat) (s : State) : Outcome :=
  .next (s.withPlane plane
    (s.deliver [(s.src, s.pixelBytes), (s.val, s.pixelBytes), (s.dst, s.pixelBytes)] s.pixB s.count
      (fun i => s.planeWritten plane i) s.count false))

/-- SETBPP (41_bitplane.md R133): the first min(CHANGED, COUNT) elements as SETBP, the rest copied. -/
def execSetbpp (plane : Nat) (s : State) : Outcome :=
  .next (s.withPlane plane
    (s.deliver [(s.src, s.pixelBytes), (s.val, s.pixelBytes), (s.dst, s.pixelBytes)] s.pixB s.count
      (fun i => if i < min s.changed s.count then s.planeWritten plane i else s.elem s.src i s.pixB)
      s.count false))

end Sys2Proof.Machine
end

