-- ==== Sys2Proof/Machine/Frame.lean ====
section
/-! DEFINITION. The frame family: FENC and FDEC (42_framecodec.md). -/

namespace Sys2Proof.Machine

/-- The checks before any region, in this order (42_framecodec.md R150): the plane, then the shape. -/
def State.withFrame (s : State) (plane : Nat) (rest : State) : State :=
  s.withPlane plane (if s.shapeOk then rest else s.raise .shape)

/-- The number of bits FENC embeds, min(8*L, cap) (42_framecodec.md R153). -/
def State.embeddedBits (s : State) : Nat := min (8 * s.msgLen) (capacity s.count)

/-- FENC (42_framecodec.md R153): stream bit i goes to element i (R152); elements past the embedded bits are copied. -/
def execFenc (plane : Nat) (s : State) : Outcome :=
  .next (s.withFrame plane
    (s.deliver [(s.src, s.pixelBytes), (s.val, s.msgLen), (s.dst, s.pixelBytes)] s.pixB s.count
      (fun i =>
        if i < s.embeddedBits then setBit (s.elem s.src i s.pixB) plane (s.messageBit i)
        else s.elem s.src i s.pixB)
      (s.embeddedBits / 8) (embedTrunc s.msgLen s.count)))

/-- FDEC (42_framecodec.md R155): output byte j packs plane bits 8j to 8j+7, the first highest. -/
def execFdec (plane : Nat) (s : State) : Outcome :=
  .next (s.withFrame plane
    (s.deliver [(s.src, s.pixelBytes), (s.dst, s.count / 8)] 1 (s.count / 8)
      (fun j => packBits (fun k => bit (s.elem s.src (8 * j + k) s.pixB) plane) 8)
      (s.count / 8) (extractTrunc s.count)))

end Sys2Proof.Machine
end

