-- ==== Sys2Proof/Machine/SampleWidth.lean ====
section
/-! DEFINITION. The sample-width family: I8TOU8, U8TOI8, I16TOI8, I8TOI16 and CVT (40_sample_width.md). -/

namespace Sys2Proof.Machine

/-- Sample `i` of an array of one-byte samples. -/
def State.byteSample (s : State) (base i : Nat) : Byte := lowByte (s.elem base i 1)

/-- Byte samples to byte samples, `g` on each: n in, n out. -/
def State.mapBytes (s : State) (g : Byte → Byte) : State :=
  s.deliver [(s.src, s.count), (s.dst, s.count)] 1 s.count
    (fun i => (g (s.byteSample s.src i)).setWidth 32) s.count false

/-- int16 samples copied: n in, n out. -/
def State.copyHalfwords (s : State) : State :=
  s.deliver [(s.src, 2 * s.count), (s.dst, 2 * s.count)] 2 s.count
    (fun j => s.elem s.src j 2) s.count false

/-- int16 samples split to bytes, the high byte first, `g` on each byte: n in, 2n out. -/
def State.splitHalfwords (s : State) (g : Byte → Byte) : State :=
  s.deliver [(s.src, 2 * s.count), (s.dst, 2 * s.count)] 1 (2 * s.count)
    (fun k =>
      (g (if k % 2 = 0 then highByte (s.elem s.src (k / 2) 2)
          else lowByte (s.elem s.src (k / 2) 2))).setWidth 32)
    (2 * s.count) false

/-- Byte pairs joined to int16 samples, `g` on each byte first: n in, n div 2 out; the source is checked at its full n
bytes, and an odd last byte is dropped. -/
def State.joinBytes (s : State) (g : Byte → Byte) : State :=
  s.deliver [(s.src, s.count), (s.dst, 2 * (s.count / 2))] 2 (s.count / 2)
    (fun j => (join (g (s.byteSample s.src (2 * j))) (g (s.byteSample s.src (2 * j + 1)))).setWidth 32)
    (s.count / 2) (wideningTrunc s.count)

/-- A row of the conversion table of 40_sample_width.md R108. -/
def State.convert (s : State) (source target : SampleType) : State :=
  match source, target with
  | .int8, .int8 => s.mapBytes id
  | .uint8, .uint8 => s.mapBytes id
  | .int16, .int16 => s.copyHalfwords
  | .int8, .uint8 => s.mapBytes flip
  | .uint8, .int8 => s.mapBytes flip
  | .int16, .int8 => s.splitHalfwords id
  | .int8, .int16 => s.joinBytes id
  | .int16, .uint8 => s.splitHalfwords flip
  | .uint8, .int16 => s.joinBytes flip

/-- I8TOU8 (40_sample_width.md R104). -/
def execI8toU8 (s : State) : Outcome := .next (s.mapBytes flip)

/-- U8TOI8 (40_sample_width.md R105). -/
def execU8toI8 (s : State) : Outcome := .next (s.mapBytes flip)

/-- I16TOI8 (40_sample_width.md R106). -/
def execI16toI8 (s : State) : Outcome := .next (s.splitHalfwords id)

/-- I8TOI16 (40_sample_width.md R107). -/
def execI8toI16 (s : State) : Outcome := .next (s.joinBytes id)

/-- CVT (40_sample_width.md R108): the types are checked before any region. -/
def execCvt (stype dtype : Nat) (s : State) : Outcome :=
  match sampleType? stype, sampleType? dtype with
  | some source, some target => .next (s.convert source target)
  | _, _ => .next (s.raise .unsupportedType)

end Sys2Proof.Machine
end

