-- ==== Sys2Proof/Machine/Dispatch.lean ====
section
/-! DEFINITION. One arm per command: the meaning it calls. -/

namespace Sys2Proof.Machine

def exec (i : Instr) (s : State) : Host.Outcome State Fault Refusal :=
  match i with
  | .i8tou8 => Sys2Proof.Machine.execI8toU8 s
  | .u8toi8 => Sys2Proof.Machine.execU8toI8 s
  | .i16toi8 => Sys2Proof.Machine.execI16toI8 s
  | .i8toi16 => Sys2Proof.Machine.execI8toI16 s
  | .cvt stype dtype => Sys2Proof.Machine.execCvt stype dtype s
  | .getbp plane => Sys2Proof.Machine.execGetbp plane s
  | .setbp plane => Sys2Proof.Machine.execSetbp plane s
  | .setbpp plane => Sys2Proof.Machine.execSetbpp plane s
  | .fenc plane => Sys2Proof.Machine.execFenc plane s
  | .fdec plane => Sys2Proof.Machine.execFdec plane s

end Sys2Proof.Machine
end

