-- ==== Sys2Proof/Machine/Engine.lean ====
section
/-! DEFINITION. The engine's step (10_state.md R34): decode the latched command and run it whole. -/

namespace Sys2Proof.Machine

/-- The engine step of a pending command: decode LAST_CMD, run the command, or raise ILLEGAL_CMD (30_encoding.md R78,
R79). That it is taken only while BUSY = 1 is Machine.step's. -/
def engineStep (s : State) : Outcome :=
  match decode s.lastCmd with
  | .ok i => exec i s
  | .error _ => .next (s.raise .illegalCmd)

end Sys2Proof.Machine
end

