-- ==== Sys2Proof/Machine/HostPort.lean ====
section
/-! DEFINITION. The host's side of the port: CSR and RAM accesses, the poll, reset, the hazards the model refuses, the
host-script notation, and which agent moves next. -/

namespace Sys2Proof.Machine

/-! ### The CSR space (10_state.md R22) -/

/-- The offset of a register. -/
def Csr.offset (c : Csr) : Nat :=
  match c with
  | .id => 0x000
  | .status => 0x004
  | .cmd => 0x008
  | .cfg => 0x00C
  | .srcAddr => 0x010
  | .valAddr => 0x014
  | .dstAddr => 0x018
  | .count => 0x01C
  | .changed => 0x020
  | .channels => 0x024
  | .msgLen => 0x028
  | .resultCount => 0x02C
  | .lastCmd => 0x030

/-- Every register of the CSR space. -/
def csrList : List Csr :=
  [.id, .status, .cmd, .cfg, .srcAddr, .valAddr, .dstAddr, .count, .changed, .channels, .msgLen, .resultCount, .lastCmd]

/-- The register at an offset; none at a reserved offset. -/
def csrAt? (offset : Nat) : Option Csr := csrList.find? (fun c => c.offset == offset)

/-- The CSR accesses the port admits: whole words at word offsets up to 0xFFC (20_memory.md R52). -/
def csrAccessOk (offset width : Nat) : Bool :=
  decide (width = 4 ∧ offset % 4 = 0 ∧ offset ≤ 0xFFC)

/-- The hardwired identity, "BPC1" (10_state.md R23). -/
def idValue : Word := 0x42504331

/-- What a read of a register returns (10_state.md R36). -/
def State.csrValue (s : State) (c : Csr) : Word :=
  match c with
  | .id => idValue
  | .status => s.status.toWord
  | .cmd => 0
  | .cfg => flagBit s.pixw 0
  | .srcAddr => s.opnd.srcAddr
  | .valAddr => s.opnd.valAddr
  | .dstAddr => s.opnd.dstAddr
  | .count => s.opnd.count
  | .changed => s.opnd.changed
  | .channels => s.opnd.channels
  | .msgLen => s.opnd.msgLen
  | .resultCount => s.resultCount
  | .lastCmd => s.lastCmd

/-- What a read at an offset returns: 0 at a reserved one (10_state.md R36). -/
def State.csrRead (s : State) (offset : Nat) : Word :=
  match csrAt? offset with
  | some c => s.csrValue c
  | none => 0

/-- A CSR write while BUSY = 0 (10_state.md R35): read-only registers and reserved offsets ignore it. -/
def State.csrWrite (s : State) (offset : Nat) (v : Word) : State :=
  match csrAt? offset with
  | some .cmd => s.issue v
  | some .cfg => { s with pixw := v.getLsbD 0 }
  | some .srcAddr => { s with opnd := { s.opnd with srcAddr := v } }
  | some .valAddr => { s with opnd := { s.opnd with valAddr := v } }
  | some .dstAddr => { s with opnd := { s.opnd with dstAddr := v } }
  | some .count => { s with opnd := { s.opnd with count := v } }
  | some .changed => { s with opnd := { s.opnd with changed := v } }
  | some .channels => { s with opnd := { s.opnd with channels := v } }
  | some .msgLen => { s with opnd := { s.opnd with msgLen := v } }
  | some .id => s
  | some .status => s
  | some .resultCount => s
  | some .lastCmd => s
  | none => s

/-! ### The RAM space (20_memory.md R53) -/

/-- The RAM accesses the port admits: 1, 2 or 4 bytes that end inside the RAM. -/
def State.ramAccessOk (s : State) (offset width : Nat) : Bool :=
  decide ((width = 1 ∨ width = 2 ∨ width = 4) ∧ offset + width ≤ s.bufBytes)

/-! ### One move of the host (60_exceptions.md R215) -/

/-- The host gets a value back. -/
def State.reply (s : State) (v : Word) : State :=
  { s with env := { s.env with replies := v :: s.env.replies } }

/-- One move of the host, already taken off the script. A malformed access is refused as such; a well-formed one that
70_reset_and_hazards.md R236 forbids while BUSY = 1 is refused as a busy hazard. -/
def hostStep (op : HostOp) (s : State) : Outcome :=
  match op with
  | .readCsr offset width =>
    if csrAccessOk offset width then .next (s.reply (s.csrRead offset)) else .refused .csrAccess
  | .writeCsr offset width v =>
    if csrAccessOk offset width then
      if s.status.busy then .refused .busyHazard else .next (s.csrWrite offset v)
    else .refused .csrAccess
  | .readRam offset width =>
    if s.ramAccessOk offset width then
      if s.status.busy then .refused .busyHazard else .next (s.reply (s.memRead offset width))
    else .refused .ramAccess
  | .writeRam offset width v =>
    if s.ramAccessOk offset width then
      if s.status.busy then .refused .busyHazard
      else .next { s with ram := s.ram.writeLE offset width v }
    else .refused .ramAccess
  | .wait =>
    if s.status.busy then
      .next (State.reply { s with env := { s.env with script := .wait :: s.env.script } } s.status.toWord)
    else .next (s.reply s.status.toWord)
  | .reset => .next s.assertReset

/-! ### Which agent moves next (20_memory.md R60, 70_reset_and_hazards.md R241) -/

/-- The next mover: nobody, the engine, or the host with its next access. -/
inductive Mover where
  | idle
  | engine
  | host (op : HostOp) (rest : List HostOp)
  deriving DecidableEq, Repr

/-- While BUSY = 0 only the host can move. While BUSY = 1 both can; the next turn says which, and the engine moves when
no turn is left or the script is empty. -/
def State.mover (s : State) : Mover :=
  match s.status.busy, s.env.turns, s.env.script with
  | true, .host :: _, op :: rest => .host op rest
  | true, _, _ => .engine
  | false, _, op :: rest => .host op rest
  | false, _, [] => .idle

/-- A step taken while a command is pending uses up one turn. -/
def State.takeTurn (s : State) : State :=
  if s.status.busy then { s with env := { s.env with turns := s.env.turns.tail } } else s

/-- Take the host's next access off the script. -/
def State.withScript (s : State) (rest : List HostOp) : State :=
  { s with env := { s.env with script := rest } }

/-! ### Host-script notation (30_encoding.md R83) -/

/-- `WCSR NAME, v`. -/
def wcsr (c : Csr) (v : Word) : List HostOp := [.writeCsr c.offset 4 v]

/-- `RCSR NAME`. -/
def rcsr (c : Csr) : List HostOp := [.readCsr c.offset 4]

/-- `WRAM o, b0, b1, ...`. -/
def wram (offset : Nat) (bytes : List Byte) : List HostOp :=
  match bytes with
  | [] => []
  | b :: rest => .writeRam offset 1 (b.setWidth 32) :: wram (offset + 1) rest

/-- `RRAM o, n`. -/
def rram (offset n : Nat) : List HostOp :=
  match n with
  | 0 => []
  | k + 1 => .readRam offset 1 :: rram (offset + 1) k

/-- `ISSUE <command>`. -/
def issueCmd (i : Instr) : List HostOp := wcsr .cmd (encode i)

end Sys2Proof.Machine
end

