-- ==== Sys2Proof/Machine/Step.lean ====
section
/-! DEFINITION. One atomic step of the block and its host (20_memory.md R56, R60), and the host's placing of a command. -/

namespace Sys2Proof.Machine

/-- One step: the next mover's. With no command pending and no host access left, nothing changes (log entry 5). -/
def step (s : State) : Host.Outcome State Fault Refusal :=
  match s.mover with
  | .engine => engineStep s.takeTurn
  | .host op rest => hostStep op (s.takeTurn.withScript rest)
  | .idle => .next s

/-- `s` with a command word issued and the engine's turn next, so that the very next step runs it. The block fetches no
instruction: this stands for the host's write to CMD (log entry 6). -/
def State.withFetchWord (s : State) (nbits w : Nat) : State :=
  let t := s.issue ((BitVec.ofNat nbits w).setWidth 32)
  { t with env := { t.env with turns := .engine :: t.env.turns } }

end Sys2Proof.Machine
end

