-- ==== Sys2Proof/Machine/Assembler.lean ====
section
/-! DEFINITION. The assembler's notation: one line of text to one command (30_encoding.md R81), and the
pseudo-instructions (R82). A notation, not a behaviour of the block (92_eei_decisions.md D32). -/

namespace Sys2Proof.Machine

/-- Why the assembler refuses a line. -/
inductive AsmError where
  /-- No mnemonic or pseudo-instruction of R81 or R82. -/
  | unknownMnemonic
  /-- Too few or too many operands, or one that is no number or type name. -/
  | badOperand
  /-- A plane above 255 or a raw type code above 15 (R81). -/
  | doesNotFit
  deriving DecidableEq, Repr

/-- The one command that a pseudo-instruction stands for (30_encoding.md R82). -/
def expandPseudo (p : Pseudo) : Instr :=
  match p with
  | .i16tou8 => .cvt 2 1
  | .u8toi16 => .cvt 1 2
  | .copyInt8 => .cvt 0 0
  | .copyUint8 => .cvt 1 1
  | .copyInt16 => .cvt 2 2
  | .getlsb => .getbp 0
  | .setlsb => .setbp 0
  | .setlsbp => .setbpp 0

/-! ### Text -/

def asmSpace (c : Char) : Bool := c == ' ' || c == '\t'

/-- Without the spaces at either end. -/
def asmTrim (cs : List Char) : List Char :=
  ((cs.dropWhile asmSpace).reverse.dropWhile asmSpace).reverse

/-- The parts between commas. -/
def asmSplit (cs : List Char) : List (List Char) :=
  match cs with
  | [] => [[]]
  | c :: rest =>
    if c = ',' then [] :: asmSplit rest
    else
      match asmSplit rest with
      | [] => [[c]]
      | part :: parts => (c :: part) :: parts

/-- The operands of a line, each trimmed; none of an empty text. -/
def asmOperands (cs : List Char) : List (List Char) :=
  if asmTrim cs = [] then [] else (asmSplit cs).map asmTrim

/-- The value of a digit in a base up to 16. -/
def asmDigit (base : Nat) (c : Char) : Option Nat :=
  let v :=
    if '0' ≤ c ∧ c ≤ '9' then some (c.toNat - '0'.toNat)
    else if 'a' ≤ c ∧ c ≤ 'f' then some (c.toNat - 'a'.toNat + 10)
    else if 'A' ≤ c ∧ c ≤ 'F' then some (c.toNat - 'A'.toNat + 10)
    else none
  v.filter (fun d => decide (d < base))

/-- Digits in a base, the most significant first, below those already read. -/
def asmDigits (base acc : Nat) (cs : List Char) : Option Nat :=
  match cs with
  | [] => some acc
  | c :: rest =>
    match asmDigit base c with
    | some d => asmDigits base (base * acc + d) rest
    | none => none

/-- An operand number: decimal, or hexadecimal with a `0x` prefix (R81). -/
def asmNumber (cs : List Char) : Option Nat :=
  match cs with
  | [] => none
  | ['0', 'x'] => none
  | '0' :: 'x' :: digits => asmDigits 16 0 digits
  | digits => asmDigits 10 0 digits

/-! ### Operands -/

/-- Format N takes no operand. -/
def asmBare (ops : List (List Char)) (i : Instr) : Except AsmError Instr :=
  match ops with
  | [] => .ok i
  | _ => .error .badOperand

/-- A plane from 0 to 255. -/
def asmPlane (ops : List (List Char)) (mk : Nat → Instr) : Except AsmError Instr :=
  match ops with
  | [text] =>
    match asmNumber text with
    | some plane => if planeFits plane then .ok (mk plane) else .error .doesNotFit
    | none => .error .badOperand
  | _ => .error .badOperand

/-- A type's name. -/
def asmTypeName (text : List Char) : Option Nat :=
  if text = "int8".toList then some 0
  else if text = "uint8".toList then some 1
  else if text = "int16".toList then some 2
  else none

/-- A type's name, or `#n` for a raw type code from 0 to 15. -/
def asmType (text : List Char) : Except AsmError Nat :=
  match asmTypeName text with
  | some code => .ok code
  | none =>
    match text with
    | '#' :: digits =>
      match asmNumber digits with
      | some code => if typeCodeFits code then .ok code else .error .doesNotFit
      | none => .error .badOperand
    | _ => .error .badOperand

/-- `CVT <stype>, <dtype>`. -/
def asmCvt (ops : List (List Char)) : Except AsmError Instr :=
  match ops with
  | [source, target] =>
    match asmType source, asmType target with
    | .ok stype, .ok dtype => .ok (.cvt stype dtype)
    | .error e, _ => .error e
    | _, .error e => .error e
  | _ => .error .badOperand

/-- `COPY <type>`, one of the three names (R82). -/
def asmCopy (ops : List (List Char)) : Except AsmError Instr :=
  match ops with
  | [text] =>
    match asmTypeName text with
    | some code => .ok (.cvt code code)
    | none => .error .badOperand
  | _ => .error .badOperand

/-- One line of assembly: the mnemonic in any case, then its operands (R81, R82). -/
def assemble (line : List Char) : Except AsmError Instr :=
  let body := asmTrim line
  let name := (body.takeWhile (fun c => !asmSpace c)).map Char.toLower
  let ops := asmOperands (body.dropWhile (fun c => !asmSpace c))
  if name = "i8tou8".toList then asmBare ops .i8tou8
  else if name = "u8toi8".toList then asmBare ops .u8toi8
  else if name = "i16toi8".toList then asmBare ops .i16toi8
  else if name = "i8toi16".toList then asmBare ops .i8toi16
  else if name = "cvt".toList then asmCvt ops
  else if name = "getbp".toList then asmPlane ops .getbp
  else if name = "setbp".toList then asmPlane ops .setbp
  else if name = "setbpp".toList then asmPlane ops .setbpp
  else if name = "fenc".toList then asmPlane ops .fenc
  else if name = "fdec".toList then asmPlane ops .fdec
  else if name = "i16tou8".toList then asmBare ops (expandPseudo .i16tou8)
  else if name = "u8toi16".toList then asmBare ops (expandPseudo .u8toi16)
  else if name = "copy".toList then asmCopy ops
  else if name = "getlsb".toList then asmBare ops (expandPseudo .getlsb)
  else if name = "setlsb".toList then asmBare ops (expandPseudo .setlsb)
  else if name = "setlsbp".toList then asmBare ops (expandPseudo .setlsbp)
  else .error .unknownMnemonic

end Sys2Proof.Machine
end

