-- ==== Sys2Proof/Safety.lean ====
section
/-! DEFINITION. What counts as a safe run, the invariant of the block, and the two ways a command ends, in the terms the
claims use. -/

namespace Sys2Proof.Machine

/-- The fields of STATUS agree with each other (10_state.md R24, R25; 60_exceptions.md R202, R203): BUSY and DONE are
never both 1, an error or a truncation is of a completed command, no command has both, and ERRCODE is nonzero exactly
when ERR is 1. -/
abbrev Status.consistent (st : Status) : Prop :=
  ¬(st.busy = true ∧ st.done = true) ∧
  (st.err = true → st.done = true) ∧
  (st.trunc = true → st.done = true ∧ st.err = false) ∧
  (st.errCode = .none ↔ st.err = false)

/-- The invariant: BUF_BYTES is legal (00_scope.md R10), the RAM is in canonical form and lists only bytes the RAM has
(10_state.md R31), STATUS is consistent, and after an error RESULT_COUNT is 0 (R29). -/
abbrev State.Inv (s : State) : Prop :=
  (1 ≤ s.bufBytes ∧ s.bufBytes ≤ Config.maxBufBytes) ∧
  s.ram.wf = true ∧
  s.ram.below s.bufBytes = true ∧
  s.status.consistent ∧
  (s.status.err = true → s.resultCount = 0)

/-- The run of `k` steps from `s` is never refused: no host access without a meaning (20_memory.md R52, R53;
70_reset_and_hazards.md R236). -/
def SafeFor (k : Nat) (s : State) : Prop :=
  match k with
  | 0 => True
  | j + 1 => ∃ t, step s = .next t ∧ SafeFor j t

/-- What the host must do (60_exceptions.md R215), over the accesses still to be made: every access well-formed
(20_memory.md R52, R53), and after a write to CMD no CSR write and no RAM access before a WAIT or a reset. `pending` says
whether a command may be pending already. -/
def disciplined (bufBytes : Nat) (pending : Bool) (script : List HostOp) : Bool :=
  match script with
  | [] => true
  | .readCsr offset width :: rest => csrAccessOk offset width && disciplined bufBytes pending rest
  | .writeCsr offset width _ :: rest =>
    csrAccessOk offset width && !pending && disciplined bufBytes (decide (offset = 0x008)) rest
  | .readRam offset width :: rest =>
    decide ((width = 1 ∨ width = 2 ∨ width = 4) ∧ offset + width ≤ bufBytes) && !pending &&
      disciplined bufBytes false rest
  | .writeRam offset width _ :: rest =>
    decide ((width = 1 ∨ width = 2 ∨ width = 4) ∧ offset + width ≤ bufBytes) && !pending &&
      disciplined bufBytes false rest
  | .wait :: rest => disciplined bufBytes false rest
  | .reset :: rest => disciplined bufBytes false rest

/-- A run has ended (70_reset_and_hazards.md R239): no host access is left and BUSY = 0. -/
abbrev State.ended (s : State) : Prop := s.env.script = [] ∧ s.status.busy = false

/-- The region check of 20_memory.md R54, as a proposition of its own. -/
abbrev InRange (s : State) (a len : Nat) : Prop := len = 0 ∨ a + len ≤ s.bufBytes

/-- `t` is `s` after a success completion (60_exceptions.md R202) of a command whose destination is the `len` bytes at
`base`: STATUS is DONE with the truncation flag `trunc`, RESULT_COUNT holds `n` mod 2^32, every byte outside the
destination reads as before, and no other register changes. What the destination holds is stated beside it. -/
def Completed (s t : State) (base len n : Nat) (trunc : Bool) : Prop :=
  t.status = { busy := false, done := true, err := false, trunc := trunc, errCode := .none } ∧
  t.resultCount.toNat = n % 2 ^ 32 ∧
  (∀ a, ¬(base ≤ a ∧ a < base + len) → t.byteAt a = s.byteAt a) ∧
  t.pixw = s.pixw ∧ t.opnd = s.opnd ∧ t.lastCmd = s.lastCmd ∧
  t.ramEpoch = s.ramEpoch ∧ t.bufBytes = s.bufBytes ∧ t.env = s.env

/-- `t` is `s` after an error completion (60_exceptions.md R203): RESULT_COUNT is 0, STATUS is DONE and ERR with the code,
TRUNC is 0, and nothing else changes, no byte of RAM either. -/
def Failed (s t : State) (e : ErrCode) : Prop :=
  t = { s with
        resultCount := 0
        status := { busy := false, done := true, err := true, trunc := false, errCode := e } }

/-- The length in bytes of a command's destination region (40_sample_width.md R104 to R108, 41_bitplane.md R131 to R133,
42_framecodec.md R153, R155); 0 for a conversion between types that are not supported. -/
def destBytes (i : Instr) (s : State) : Nat :=
  match i with
  | .i8tou8 => s.count
  | .u8toi8 => s.count
  | .i16toi8 => 2 * s.count
  | .i8toi16 => 2 * (s.count / 2)
  | .cvt stype dtype =>
    match sampleType? stype, sampleType? dtype with
    | some .int16, some _ => 2 * s.count
    | some _, some .int16 => 2 * (s.count / 2)
    | some _, some _ => s.count
    | _, _ => 0
  | .getbp _ => s.count * s.pixB
  | .setbp _ => s.count * s.pixB
  | .setbpp _ => s.count * s.pixB
  | .fenc _ => s.count * s.pixB
  | .fdec _ => s.count / 8

/-- The state after the host has written SRC_ADDR, DST_ADDR and COUNT for a next command (70_reset_and_hazards.md R234). -/
def State.aimed (s : State) (src dst count : Word) : State :=
  { s with opnd := { s.opnd with srcAddr := src, dstAddr := dst, count := count } }

/-- The state after the host has written VAL_ADDR. -/
def State.withVal (s : State) (val : Word) : State :=
  { s with opnd := { s.opnd with valAddr := val } }

/-- A word of opcode `op` whose value at and above `unit` is not 0, that is with a reserved bit set, ends in ILLEGAL_CMD
when the engine's turn comes to run it (30_encoding.md R78, R79). The engine's step uses up one turn beside. -/
def ReservedBitsRaise (op unit : Nat) : Prop :=
  ∀ s : State, s.mover = .engine → s.lastCmd.toNat % 256 = op → s.lastCmd.toNat / unit ≠ 0 →
    ∃ t, step s = .next t ∧ Failed s.takeTurn t .illegalCmd

/-- The text of a number in assembly: its decimal digits, or `0x` and its hexadecimal digits in either case
(30_encoding.md R81). -/
def IsNumeral (text : List Char) (n : Nat) : Prop :=
  text = Nat.toDigits 10 n ∨
  ∃ digits, text = '0' :: 'x' :: digits ∧ digits.map Char.toLower = Nat.toDigits 16 n

/-- The text of a type operand with its code: a type's name, or `#` and a raw code (30_encoding.md R76, R81). -/
def IsTypeText (text : List Char) (code : Nat) : Prop :=
  (text = "int8".toList ∧ code = 0) ∨ (text = "uint8".toList ∧ code = 1) ∨ (text = "int16".toList ∧ code = 2) ∨
  ∃ digits, text = '#' :: digits ∧ IsNumeral digits code

end Sys2Proof.Machine
end

