-- ==== Sys2Proof/Certificates/Slice0/Obligations.lean ====
section
/-! DEFINITION. The statements for the provers: what the spec's numbered rules say the block does. -/

open Sys2Proof Sys2Proof.Machine

/-! ### Reset -/

/-- 70_reset_and_hazards.md R230: after reset every CSR reads its reset value, ID 0x42504331 and every other one 0, in the
state the machine starts in and after the host's reset from any state, with or without a command pending; CFG.PIXW is 0
and every field of STATUS is 0. Reset is one step, taken whenever the host's next move is the reset. -/
def Obligations.ResetRestoresEveryRegister : Prop :=
  (∀ o, State.reset.csrRead o = if o = 0 then 0x42504331 else 0) ∧
  ∀ (s : State) (rest : List HostOp), s.mover = .host .reset rest →
    ∃ t, step s = .next t ∧
      (∀ o, t.csrRead o = if o = 0 then 0x42504331 else 0) ∧
      t.status = { busy := false, done := false, err := false, trunc := false, errCode := .none } ∧
      t.pixw = false ∧ t.env.script = rest

/-- 70_reset_and_hazards.md section 1 (R231 is marked derived; that the RAM's new contents are a new draw of the free value
Config.ramDraw is the model's choice, log entry 1): a pending command is abandoned, no engine step is left, and every RAM
byte reads as a fresh draw. -/
def Obligations.ResetAbandonsTheCommandAndRedrawsRam : Prop :=
  ∀ s : State, ∃ t, hostStep .reset s = .next t ∧ t.status.busy = false ∧ t.mover ≠ .engine ∧
    t.bufBytes = s.bufBytes ∧ t.env = s.env ∧
    ∀ a, t.byteAt a = Config.ramDraw (s.ramEpoch + 1) a

/-- The invariant holds at reset. -/
def Obligations.ResetStateMeetsTheInvariant : Prop := State.reset.Inv

/-! ### The invariant -/

/-- Every step keeps the invariant, whoever moves: BUF_BYTES stays legal, the RAM stays in canonical form and inside
BUF_BYTES, BUSY and DONE are never both 1, ERR and TRUNC are never both 1, ERRCODE is 0 exactly when ERR is 0, and after
an error RESULT_COUNT is 0. -/
def Obligations.EveryStepKeepsTheInvariant : Prop :=
  ∀ s t : State, s.Inv → step s = .next t → t.Inv

/-! ### Encoding -/

/-- Decoding the word of a well-formed command gives the command back, with every operand at every value its field
admits. -/
def Obligations.DecodeOfEncodeIsTheCommand : Prop :=
  ∀ i : Instr, i.wellFormed = true → decode (encode i) = .ok i

/-- A word that decodes is the word of the command it decodes to, which is well-formed: no two words are one command. -/
def Obligations.EncodeOfDecodeIsTheWord : Prop :=
  ∀ (w : Word) (i : Instr), decode w = .ok i → i.wellFormed = true ∧ encode i = w

/-- 30_encoding.md R78, over the word as a number: op = w mod 256, bits 31:8 = w div 256, bits 31:16 = w div 65536, PLANE
or STYPE and DTYPE from bits 15:8. The decoder is total; an illegal latched word makes the engine step raise ILLEGAL_CMD;
type codes and the plane range are not checked. -/
def Obligations.DecoderFollowsTheOpcodeMap : Prop :=
  (∀ w : Word,
    (w.toNat / 256 = 0 →
      (w.toNat % 256 = 0x10 → decode w = .ok .i8tou8) ∧ (w.toNat % 256 = 0x11 → decode w = .ok .u8toi8) ∧
      (w.toNat % 256 = 0x12 → decode w = .ok .i16toi8) ∧ (w.toNat % 256 = 0x13 → decode w = .ok .i8toi16)) ∧
    (w.toNat / 256 ≠ 0 → w.toNat % 256 ∈ [0x10, 0x11, 0x12, 0x13] → ∃ e, decode w = .error e) ∧
    (w.toNat / 65536 = 0 →
      (w.toNat % 256 = 0x14 → decode w = .ok (.cvt (w.toNat / 256 % 16) (w.toNat / 4096 % 16))) ∧
      (w.toNat % 256 = 0x20 → decode w = .ok (.getbp (w.toNat / 256 % 256))) ∧
      (w.toNat % 256 = 0x21 → decode w = .ok (.setbp (w.toNat / 256 % 256))) ∧
      (w.toNat % 256 = 0x22 → decode w = .ok (.setbpp (w.toNat / 256 % 256))) ∧
      (w.toNat % 256 = 0x30 → decode w = .ok (.fenc (w.toNat / 256 % 256))) ∧
      (w.toNat % 256 = 0x31 → decode w = .ok (.fdec (w.toNat / 256 % 256)))) ∧
    (w.toNat / 65536 ≠ 0 → w.toNat % 256 ∈ [0x14, 0x20, 0x21, 0x22, 0x30, 0x31] → ∃ e, decode w = .error e) ∧
    (w.toNat % 256 ∉ [0x10, 0x11, 0x12, 0x13, 0x14, 0x20, 0x21, 0x22, 0x30, 0x31] → ∃ e, decode w = .error e)) ∧
  ∀ s : State, s.mover = .engine →
    (∀ e, decode s.lastCmd = .error e → ∃ t, step s = .next t ∧ Failed s.takeTurn t .illegalCmd) ∧
    (∀ i, decode s.lastCmd = .ok i → step s = exec i s.takeTurn)

/-- One word of each command, written out from 30_encoding.md R74 and the vectors of 95_test_vectors.md, decodes to the
command it stands for, and three words with a reserved bit set or an unlisted opcode do not. -/
def Obligations.TableWordsDecodeToTheirCommands : Prop :=
  decode 0x00000010 = .ok .i8tou8 ∧ decode 0x00000011 = .ok .u8toi8 ∧ decode 0x00000012 = .ok .i16toi8 ∧
  decode 0x00000013 = .ok .i8toi16 ∧ decode 0x00001214 = .ok (.cvt 2 1) ∧ decode 0x00002114 = .ok (.cvt 1 2) ∧
  decode 0x0000F014 = .ok (.cvt 0 15) ∧ decode 0x00000520 = .ok (.getbp 5) ∧ decode 0x00000421 = .ok (.setbp 4) ∧
  decode 0x00000722 = .ok (.setbpp 7) ∧ decode 0x00000F30 = .ok (.fenc 15) ∧ decode 0x00000831 = .ok (.fdec 8) ∧
  decode 0x00000110 = .error .reservedBits ∧ decode 0x00010314 = .error .reservedBits ∧
  decode 0x00000023 = .error .unlistedOpcode

/-- 30_encoding.md R82: each pseudo-instruction stands for its command and that command's word. -/
def Obligations.PseudoInstructionsExpandToTheirWords : Prop :=
  (expandPseudo .i16tou8 = .cvt 2 1 ∧ encode (expandPseudo .i16tou8) = 0x00001214) ∧
  (expandPseudo .u8toi16 = .cvt 1 2 ∧ encode (expandPseudo .u8toi16) = 0x00002114) ∧
  (expandPseudo .copyInt8 = .cvt 0 0 ∧ encode (expandPseudo .copyInt8) = 0x00000014) ∧
  (expandPseudo .copyUint8 = .cvt 1 1 ∧ encode (expandPseudo .copyUint8) = 0x00001114) ∧
  (expandPseudo .copyInt16 = .cvt 2 2 ∧ encode (expandPseudo .copyInt16) = 0x00002214) ∧
  (expandPseudo .getlsb = .getbp 0 ∧ encode (expandPseudo .getlsb) = 0x00000020) ∧
  (expandPseudo .setlsb = .setbp 0 ∧ encode (expandPseudo .setlsb) = 0x00000021) ∧
  (expandPseudo .setlsbp = .setbpp 0 ∧ encode (expandPseudo .setlsbp) = 0x00000022)

/-- 30_encoding.md R81. A line of a format-N mnemonic alone is its command. A line of a format-P mnemonic and a number is
that command with that plane when the number is at most 255, and is refused above 255. A line `CVT` with two types, each
`int8`, `uint8`, `int16` or `#` and a raw code, is that conversion when both codes are at most 15, and is refused when one
is above 15. Mnemonics are taken in any case; numbers are decimal, or hexadecimal after `0x`. And whatever line the
assembler accepts, its operands fit their fields. -/
def Obligations.AssemblerAcceptsExactlyWhatFits : Prop :=
  (∀ (name : List Char) (i : Instr),
    (name.map Char.toLower = "i8tou8".toList ∧ i = .i8tou8) ∨ (name.map Char.toLower = "u8toi8".toList ∧ i = .u8toi8) ∨
    (name.map Char.toLower = "i16toi8".toList ∧ i = .i16toi8) ∨
    (name.map Char.toLower = "i8toi16".toList ∧ i = .i8toi16) →
    assemble name = .ok i) ∧
  (∀ (name text : List Char) (mk : Nat → Instr) (n : Nat),
    (name.map Char.toLower = "getbp".toList ∧ mk = .getbp) ∨ (name.map Char.toLower = "setbp".toList ∧ mk = .setbp) ∨
    (name.map Char.toLower = "setbpp".toList ∧ mk = .setbpp) ∨ (name.map Char.toLower = "fenc".toList ∧ mk = .fenc) ∨
    (name.map Char.toLower = "fdec".toList ∧ mk = .fdec) →
    IsNumeral text n →
    (n ≤ 255 → assemble (name ++ ' ' :: text) = .ok (mk n)) ∧
    (255 < n → ∃ e, assemble (name ++ ' ' :: text) = .error e)) ∧
  (∀ (name source target : List Char) (st dt : Nat),
    name.map Char.toLower = "cvt".toList → IsTypeText source st → IsTypeText target dt →
    (st ≤ 15 ∧ dt ≤ 15 → assemble (name ++ ' ' :: (source ++ ',' :: ' ' :: target)) = .ok (.cvt st dt)) ∧
    (15 < st ∨ 15 < dt → ∃ e, assemble (name ++ ' ' :: (source ++ ',' :: ' ' :: target)) = .error e)) ∧
  (∀ (line : List Char) (i : Instr), assemble line = .ok i → i.wellFormed = true)

/-! ### The step -/

/-- While a command is pending and it is the engine's turn (no turn left, no host access left, or the next turn the
engine's), and LAST_CMD decodes to a command, step is exec of that command; around it step only uses up one turn. -/
def Obligations.StepRunsTheDecodedCommand : Prop :=
  ∀ (s : State) (i : Instr), s.status.busy = true →
    (s.env.script = [] ∨ s.env.turns = [] ∨ s.env.turns.head? = some .engine) →
    decode s.lastCmd = .ok i → i.wellFormed = true →
    step s = exec i { s with env := { s.env with turns := s.env.turns.tail } }

/-- When it is the host's turn, step is the next access of the script, taken off it; while a command is pending one turn
is used up. -/
def Obligations.StepTakesTheHostsNextAccess : Prop :=
  ∀ (s : State) (op : HostOp) (rest : List HostOp), s.env.script = op :: rest →
    (s.status.busy = false → step s = hostStep op { s with env := { s.env with script := rest } }) ∧
    (s.status.busy = true → s.env.turns.head? = some .host →
      step s = hostStep op { s with env := { s.env with script := rest, turns := s.env.turns.tail } })

/-- While BUSY = 0 and the host makes no access, the block keeps its state. That the model's step then answers the same
state is the model's choice (log entry 5). -/
def Obligations.IdleBlockKeepsItsState : Prop :=
  ∀ s : State, s.ended → step s = .next s

/-- A command does not see the host's side: with any other environment it does the same and leaves that environment as
it is. -/
def Obligations.CommandsNeitherReadNorWriteTheEnvironment : Prop :=
  ∀ (i : Instr) (s t : State) (e : Env), exec i s = .next t → exec i { s with env := e } = .next { t with env := e }

/-- 70_reset_and_hazards.md section 4 (R241; that the turns of a run are a finite list is the model's choice, log entry 4).
From every state with BUSY = 1, after at most as many steps as there are turns left, each of which leaves the block as it
is, comes the step that ends the pending command: the engine's, which completes it (BUSY = 0, DONE = 1), or the host's
reset, which abandons it, or a host access that is refused. And with a WAIT next in the script the command completes: some
number of steps, at most two more than the turns left, answers a state in which the WAIT is done, BUSY is 0, DONE is 1, and
the last poll read that STATUS. -/
def Obligations.PendingCommandsEndAndWaitsSeeCompletion : Prop :=
  (∀ s : State, s.status.busy = true →
    ∃ k u, k ≤ s.env.turns.length ∧ Host.Core.run Sys2Proof.core k s = .next u ∧ u = { s with env := u.env } ∧
      ((u.mover = .engine ∧ ∃ t, step u = .next t ∧ t.status.busy = false ∧ t.status.done = true) ∨
       (∃ rest t, u.mover = .host .reset rest ∧ step u = .next t ∧ t.status.busy = false ∧ t.status.done = false) ∨
       ∃ r, step u = .refused r)) ∧
  (∀ (s : State) (rest : List HostOp), s.status.busy = true → s.env.script = .wait :: rest →
    ∃ k t, k ≤ s.env.turns.length + 2 ∧ Host.Core.run Sys2Proof.core k s = .next t ∧
      t.status.busy = false ∧ t.status.done = true ∧ t.env.script = rest ∧
      t.env.replies.head? = some t.status.toWord)

/-- 60_exceptions.md section 5, 70_reset_and_hazards.md section 3: a host that makes only well-formed accesses, and waits
between an issue and its next CSR write or RAM access, is never refused, whichever agent moves when. -/
def Obligations.DisciplinedHostsAreNeverRefused : Prop :=
  ∀ s : State, disciplined s.bufBytes s.status.busy s.env.script = true → ∀ k, SafeFor k s

/-! ### The host port -/

/-- 10_state.md R33: a write of w to CMD while BUSY = 0 latches w and sets BUSY, clearing the other fields of STATUS, and
changes nothing else; no check of w is made. -/
def Obligations.WritingCmdIssuesTheCommand : Prop :=
  ∀ (s : State) (w : Word), s.status.busy = false →
    hostStep (.writeCsr 0x008 4 w) s =
      .next { s with
              lastCmd := w
              status := { busy := true, done := false, err := false, trunc := false, errCode := .none } }

/-- 10_state.md R35: what a CSR write of v at each offset does while BUSY = 0, and that it is refused while BUSY = 1.
CFG keeps bit 0 of v alone. -/
def Obligations.CsrWritesStoreByRegister : Prop :=
  ∀ (s : State) (v : Word),
    (s.status.busy = false →
      (∀ o, o % 4 = 0 → o ≤ 0xFFC →
        (o = 0x000 ∨ o = 0x004 ∨ o = 0x02C ∨ o = 0x030 ∨ 0x034 ≤ o) → hostStep (.writeCsr o 4 v) s = .next s) ∧
      hostStep (.writeCsr 0x008 4 v) s = .next (s.issue v) ∧
      (∃ t, hostStep (.writeCsr 0x00C 4 v) s = .next t ∧ t = { s with pixw := t.pixw } ∧
        t.csrRead 0x00C = v &&& 0x00000001) ∧
      hostStep (.writeCsr 0x010 4 v) s = .next { s with opnd := { s.opnd with srcAddr := v } } ∧
      hostStep (.writeCsr 0x014 4 v) s = .next { s with opnd := { s.opnd with valAddr := v } } ∧
      hostStep (.writeCsr 0x018 4 v) s = .next { s with opnd := { s.opnd with dstAddr := v } } ∧
      hostStep (.writeCsr 0x01C 4 v) s = .next { s with opnd := { s.opnd with count := v } } ∧
      hostStep (.writeCsr 0x020 4 v) s = .next { s with opnd := { s.opnd with changed := v } } ∧
      hostStep (.writeCsr 0x024 4 v) s = .next { s with opnd := { s.opnd with channels := v } } ∧
      hostStep (.writeCsr 0x028 4 v) s = .next { s with opnd := { s.opnd with msgLen := v } }) ∧
    (s.status.busy = true → ∀ o, o % 4 = 0 → o ≤ 0xFFC → hostStep (.writeCsr o 4 v) s = .refused .busyHazard)

/-- 10_state.md R36: a CSR read answers the register's current value, 0 for CMD and every reserved offset, changes nothing
but what the host has read, and is allowed while BUSY = 1; STATUS then reads BUSY = 1, and every register keeps the value
it reads until the command completes. -/
def Obligations.CsrReadsAnswerTheCurrentValue : Prop :=
  (∀ (s : State) (o : Nat), o % 4 = 0 → o ≤ 0xFFC →
    ∃ v, hostStep (.readCsr o 4) s = .next { s with env := { s.env with replies := v :: s.env.replies } } ∧
      (o = 0x000 → v = 0x42504331) ∧ (o = 0x004 → v = s.status.toWord) ∧ (o = 0x008 → v = 0) ∧
      (o = 0x00C → v = if s.pixw then 1 else 0) ∧
      (o = 0x010 → v = s.opnd.srcAddr) ∧ (o = 0x014 → v = s.opnd.valAddr) ∧ (o = 0x018 → v = s.opnd.dstAddr) ∧
      (o = 0x01C → v = s.opnd.count) ∧ (o = 0x020 → v = s.opnd.changed) ∧ (o = 0x024 → v = s.opnd.channels) ∧
      (o = 0x028 → v = s.opnd.msgLen) ∧ (o = 0x02C → v = s.resultCount) ∧ (o = 0x030 → v = s.lastCmd) ∧
      (0x034 ≤ o → v = 0) ∧ (o = 0x004 → s.status.busy = true → v.getLsbD 0 = true)) ∧
  (∀ s t : State, s.status.busy = true → step s = .next t → t.status.busy = true →
    ∀ o, t.csrRead o = s.csrRead o)

/-- 10_state.md section 2 (R24): STATUS as a number, BUSY bit 0, DONE bit 1, ERR bit 2, TRUNC bit 3, ERRCODE in bits 11:8
with the codes of 60_exceptions.md R200, every other bit 0. -/
def Obligations.StatusWordHasTheFieldsInPlace : Prop :=
  ∀ st : Status, st.toWord.toNat =
    st.busy.toNat + 2 * st.done.toNat + 4 * st.err.toNat + 8 * st.trunc.toNat +
    256 * (match st.errCode with
      | .none => 0
      | .illegalCmd => 1
      | .unsupportedType => 2
      | .invalidPlane => 3
      | .shape => 4
      | .outOfRange => 5)

/-- 20_memory.md section 2: the host's malformed accesses have no meaning, busy or not: a CSR access that is not a whole
word at a word offset of the space, and a RAM access of a width other than 1, 2 or 4 or reaching past BUF_BYTES. -/
def Obligations.MalformedAccessesAreRefused : Prop :=
  ∀ (s : State) (o n : Nat) (v : Word),
    (¬(n = 4 ∧ o % 4 = 0 ∧ o ≤ 0xFFC) →
      hostStep (.readCsr o n) s = .refused .csrAccess ∧ hostStep (.writeCsr o n v) s = .refused .csrAccess) ∧
    (¬((n = 1 ∨ n = 2 ∨ n = 4) ∧ o + n ≤ s.bufBytes) →
      hostStep (.readRam o n) s = .refused .ramAccess ∧ hostStep (.writeRam o n v) s = .refused .ramAccess)

/-- 70_reset_and_hazards.md R236: while BUSY = 1 every CSR write, RAM read and RAM write is refused, and CSR reads stay
allowed. -/
def Obligations.BusyHazardIsRefused : Prop :=
  ∀ s : State, s.status.busy = true →
    (∀ o n v, ∃ r, hostStep (.writeCsr o n v) s = .refused r) ∧
    (∀ o n, ∃ r, hostStep (.readRam o n) s = .refused r) ∧
    (∀ o n v, ∃ r, hostStep (.writeRam o n v) s = .refused r) ∧
    (∀ o, o % 4 = 0 → o ≤ 0xFFC → ∃ t, hostStep (.readCsr o 4) s = .next t)

/-- 20_memory.md sections 1 and 2: while BUSY = 0 a host RAM write of 1, 2 or 4 bytes inside the RAM stores byte k of the
value at offset o + k and changes nothing else, and a read of the same bytes then answers the value. -/
def Obligations.RamReadAfterWriteAnswersTheValue : Prop :=
  ∀ (s : State) (o n : Nat) (v : Word), s.status.busy = false → (n = 1 ∨ n = 2 ∨ n = 4) → o + n ≤ s.bufBytes →
    ∃ t, hostStep (.writeRam o n v) s = .next t ∧ t = { s with ram := t.ram } ∧
      (∀ k, k < n → (t.byteAt (o + k)).toNat = v.toNat / 256 ^ k % 256) ∧
      (∀ a, ¬(o ≤ a ∧ a < o + n) → t.byteAt a = s.byteAt a) ∧
      ∃ u x, hostStep (.readRam o n) t = .next u ∧
        u = { t with env := { t.env with replies := x :: t.env.replies } } ∧ x.toNat = v.toNat % 256 ^ n

/-- 20_memory.md sections 1, 2 and 6: a read of one, two or four bytes is little-endian at any offset, whatever wrote the
bytes and with whatever width. From every state with BUSY = 0, a host RAM read of 1, 2 or 4 bytes inside the RAM answers
that value and changes nothing but what the host has read. A byte that nothing has written since the reset reads as the
reset draw, any byte (that it is the free value Config.ramDraw is the model's form of the draw, log entry 1). -/
def Obligations.ReadsAreLittleEndian : Prop :=
  (∀ (s : State) (a : Nat),
    (s.memRead a 1).toNat = (s.byteAt a).toNat ∧
    (s.memRead a 2).toNat = (s.byteAt a).toNat + 256 * (s.byteAt (a + 1)).toNat ∧
    (s.memRead a 4).toNat = (s.byteAt a).toNat + 256 * (s.byteAt (a + 1)).toNat +
      65536 * (s.byteAt (a + 2)).toNat + 16777216 * (s.byteAt (a + 3)).toNat) ∧
  (∀ (s : State) (o n : Nat), s.status.busy = false → (n = 1 ∨ n = 2 ∨ n = 4) → o + n ≤ s.bufBytes →
    hostStep (.readRam o n) s = .next { s with env := { s.env with replies := s.memRead o n :: s.env.replies } }) ∧
  (∀ (s : State) (a : Nat), s.ram.find? a = none → s.byteAt a = Config.ramDraw s.ramEpoch a)

/-! ### What every command does -/

/-- Every command, from every state, answers a next state: it completes, with or without an error, changing no operand
register, CFG, LAST_CMD, parameter or environment; an error leaves every RAM byte as it was and RESULT_COUNT 0, and no
command ends with ILLEGAL_CMD. -/
def Obligations.EveryCommandCompletesAndKeepsItsOperands : Prop :=
  ∀ (i : Instr) (s : State), ∃ t, exec i s = .next t ∧
    t.status.busy = false ∧ t.status.done = true ∧ t.status.errCode ≠ .illegalCmd ∧
    t.opnd = s.opnd ∧ t.pixw = s.pixw ∧ t.lastCmd = s.lastCmd ∧ t.ramEpoch = s.ramEpoch ∧
    t.bufBytes = s.bufBytes ∧ t.env = s.env ∧
    (t.status.err = true → t.ram = s.ram ∧ t.resultCount = 0 ∧ t.status.trunc = false ∧ t.status.errCode ≠ .none) ∧
    (t.status.err = false → t.status.errCode = .none)

/-- No command changes a RAM byte outside its destination region. -/
def Obligations.CommandsWriteOnlyTheirDestination : Prop :=
  ∀ (i : Instr) (s t : State), exec i s = .next t →
    ∀ a, ¬(s.dst ≤ a ∧ a < s.dst + destBytes i s) → t.byteAt a = s.byteAt a

/-- 20_memory.md section 4: every read is of the snapshot, so where the destination lies, over the sources or apart from
them, does not change what is written there. -/
def Obligations.OverlapDoesNotChangeTheResult : Prop :=
  ∀ (i : Instr) (s t u : State) (d e : Word),
    exec i (s.aimed s.opnd.srcAddr d s.opnd.count) = .next t → t.status.err = false →
    exec i (s.aimed s.opnd.srcAddr e s.opnd.count) = .next u → u.status.err = false →
    ∀ k, k < destBytes i s → t.byteAt (d.toNat + k) = u.byteAt (e.toNat + k)

/-! ### The sample-width family -/

/-- I8TOU8, 40_sample_width.md R104: its word, ILLEGAL_CMD for a set reserved bit, its result, and OUT_OF_RANGE. -/
def Obligations.I8toU8FlipsEachByte : Prop :=
  decode 0x00000010 = .ok .i8tou8 ∧
  ReservedBitsRaise 0x10 256 ∧
  ∀ s : State,
    (InRange s s.src s.count ∧ InRange s s.dst s.count →
      ∃ t, exec .i8tou8 s = .next t ∧ Completed s t s.dst s.count s.count false ∧
        ∀ i, i < s.count → t.byteAt (s.dst + i) = s.byteAt (s.src + i) ^^^ 0x80) ∧
    (¬(InRange s s.src s.count ∧ InRange s s.dst s.count) →
      ∃ t, exec .i8tou8 s = .next t ∧ Failed s t .outOfRange)

/-- U8TOI8, 40_sample_width.md R105. -/
def Obligations.U8toI8FlipsEachByte : Prop :=
  decode 0x00000011 = .ok .u8toi8 ∧
  ReservedBitsRaise 0x11 256 ∧
  ∀ s : State,
    (InRange s s.src s.count ∧ InRange s s.dst s.count →
      ∃ t, exec .u8toi8 s = .next t ∧ Completed s t s.dst s.count s.count false ∧
        ∀ i, i < s.count → t.byteAt (s.dst + i) = s.byteAt (s.src + i) ^^^ 0x80) ∧
    (¬(InRange s s.src s.count ∧ InRange s s.dst s.count) →
      ∃ t, exec .u8toi8 s = .next t ∧ Failed s t .outOfRange)

/-- I16TOI8, 40_sample_width.md R106: each little-endian halfword gives its high byte, then its low byte. -/
def Obligations.I16toI8SplitsHighByteFirst : Prop :=
  decode 0x00000012 = .ok .i16toi8 ∧
  ReservedBitsRaise 0x12 256 ∧
  ∀ s : State,
    (InRange s s.src (2 * s.count) ∧ InRange s s.dst (2 * s.count) →
      ∃ t, exec .i16toi8 s = .next t ∧ Completed s t s.dst (2 * s.count) (2 * s.count) false ∧
        ∀ j, j < s.count →
          (t.byteAt (s.dst + 2 * j)).toNat = (s.memRead (s.src + 2 * j) 2).toNat / 256 ∧
          (t.byteAt (s.dst + (2 * j + 1))).toNat = (s.memRead (s.src + 2 * j) 2).toNat % 256) ∧
    (¬(InRange s s.src (2 * s.count) ∧ InRange s s.dst (2 * s.count)) →
      ∃ t, exec .i16toi8 s = .next t ∧ Failed s t .outOfRange)

/-- I8TOI16, 40_sample_width.md R107: each byte pair (high, low) gives the halfword high*256 + low, stored little-endian;
an odd last byte is dropped with TRUNC = 1, but counts in the source region. -/
def Obligations.I8toI16JoinsBytePairs : Prop :=
  decode 0x00000013 = .ok .i8toi16 ∧
  ReservedBitsRaise 0x13 256 ∧
  ∀ s : State,
    (InRange s s.src s.count ∧ InRange s s.dst (2 * (s.count / 2)) →
      ∃ t, exec .i8toi16 s = .next t ∧
        Completed s t s.dst (2 * (s.count / 2)) (s.count / 2) (decide (s.count % 2 = 1)) ∧
        ∀ j, j < s.count / 2 →
          (t.memRead (s.dst + 2 * j) 2).toNat =
            (s.byteAt (s.src + 2 * j)).toNat * 256 + (s.byteAt (s.src + (2 * j + 1))).toNat) ∧
    (¬(InRange s s.src s.count ∧ InRange s s.dst (2 * (s.count / 2))) →
      ∃ t, exec .i8toi16 s = .next t ∧ Failed s t .outOfRange)

/-- CVT, 40_sample_width.md R108: an unsupported type code raises UNSUPPORTED_TYPE before any region is looked at, even
when COUNT = 0; each of the nine rows checks its two regions and gives its lanes, count and TRUNC. (That a chained row
equals its two commands run in turn is a remark the rule marks as derived: ChainedRowsEqualTheirTwoCommands.) -/
def Obligations.CvtConvertsByTheTable : Prop :=
  (∀ st dt, st < 16 → dt < 16 → decode (BitVec.ofNat 32 (4096 * dt + 256 * st + 0x14)) = .ok (.cvt st dt)) ∧
  ReservedBitsRaise 0x14 65536 ∧
  (∀ (s : State) (st dt : Nat), (2 < st ∨ 2 < dt) → ∃ t, exec (.cvt st dt) s = .next t ∧ Failed s t .unsupportedType) ∧
  -- the same type, one byte a sample: a copy
  (∀ (s : State) (c : Nat), c = 0 ∨ c = 1 →
    (InRange s s.src s.count ∧ InRange s s.dst s.count →
      ∃ t, exec (.cvt c c) s = .next t ∧ Completed s t s.dst s.count s.count false ∧
        ∀ i, i < s.count → t.byteAt (s.dst + i) = s.byteAt (s.src + i)) ∧
    (¬(InRange s s.src s.count ∧ InRange s s.dst s.count) →
      ∃ t, exec (.cvt c c) s = .next t ∧ Failed s t .outOfRange)) ∧
  -- int16 to int16: a copy of COUNT halfwords
  (∀ s : State,
    (InRange s s.src (2 * s.count) ∧ InRange s s.dst (2 * s.count) →
      ∃ t, exec (.cvt 2 2) s = .next t ∧ Completed s t s.dst (2 * s.count) s.count false ∧
        ∀ k, k < 2 * s.count → t.byteAt (s.dst + k) = s.byteAt (s.src + k)) ∧
    (¬(InRange s s.src (2 * s.count) ∧ InRange s s.dst (2 * s.count)) →
      ∃ t, exec (.cvt 2 2) s = .next t ∧ Failed s t .outOfRange)) ∧
  -- between int8 and uint8, either way: bit 7 inverted
  (∀ (s : State) (c d : Nat), (c = 0 ∧ d = 1) ∨ (c = 1 ∧ d = 0) →
    (InRange s s.src s.count ∧ InRange s s.dst s.count →
      ∃ t, exec (.cvt c d) s = .next t ∧ Completed s t s.dst s.count s.count false ∧
        ∀ i, i < s.count → t.byteAt (s.dst + i) = s.byteAt (s.src + i) ^^^ 0x80) ∧
    (¬(InRange s s.src s.count ∧ InRange s s.dst s.count) →
      ∃ t, exec (.cvt c d) s = .next t ∧ Failed s t .outOfRange)) ∧
  -- int16 to int8 or uint8: split, high byte first, bit 7 inverted for uint8
  (∀ (s : State) (d : Nat) (x : Byte), (d = 0 ∧ x = 0) ∨ (d = 1 ∧ x = 0x80) →
    (InRange s s.src (2 * s.count) ∧ InRange s s.dst (2 * s.count) →
      ∃ t, exec (.cvt 2 d) s = .next t ∧ Completed s t s.dst (2 * s.count) (2 * s.count) false ∧
        ∀ j, j < s.count →
          t.byteAt (s.dst + 2 * j) = s.byteAt (s.src + (2 * j + 1)) ^^^ x ∧
          t.byteAt (s.dst + (2 * j + 1)) = s.byteAt (s.src + 2 * j) ^^^ x) ∧
    (¬(InRange s s.src (2 * s.count) ∧ InRange s s.dst (2 * s.count)) →
      ∃ t, exec (.cvt 2 d) s = .next t ∧ Failed s t .outOfRange)) ∧
  -- int8 or uint8 to int16: bit 7 inverted for uint8, then joined; an odd last byte dropped
  (∀ (s : State) (c : Nat) (x : Byte), (c = 0 ∧ x = 0) ∨ (c = 1 ∧ x = 0x80) →
    (InRange s s.src s.count ∧ InRange s s.dst (2 * (s.count / 2)) →
      ∃ t, exec (.cvt c 2) s = .next t ∧
        Completed s t s.dst (2 * (s.count / 2)) (s.count / 2) (decide (s.count % 2 = 1)) ∧
        ∀ j, j < s.count / 2 →
          (t.memRead (s.dst + 2 * j) 2).toNat =
            (s.byteAt (s.src + 2 * j) ^^^ x).toNat * 256 + (s.byteAt (s.src + (2 * j + 1)) ^^^ x).toNat) ∧
    (¬(InRange s s.src s.count ∧ InRange s s.dst (2 * (s.count / 2))) →
      ∃ t, exec (.cvt c 2) s = .next t ∧ Failed s t .outOfRange))

/-- 40_sample_width.md section 2, R108 (marked derived there): a chained row of CVT gives the same bytes as its two
primitive commands run in turn through a temporary buffer at DST_ADDR. -/
def Obligations.ChainedRowsEqualTheirTwoCommands : Prop :=
  (∀ (s : State) (d c : Word), c.toNat = 2 * s.count →
    InRange s s.src (2 * s.count) → InRange s s.dst (2 * s.count) → InRange s d.toNat (2 * s.count) →
    ∃ t u v, exec .i16toi8 s = .next t ∧ exec .i8tou8 (t.aimed s.opnd.dstAddr d c) = .next u ∧
      exec (.cvt 2 1) (s.aimed s.opnd.srcAddr d s.opnd.count) = .next v ∧
      u.status.err = false ∧ v.status.err = false ∧ u.resultCount = v.resultCount ∧
      ∀ k, k < 2 * s.count → u.byteAt (d.toNat + k) = v.byteAt (d.toNat + k)) ∧
  (∀ (s : State) (d : Word),
    InRange s s.src s.count → InRange s s.dst s.count → InRange s d.toNat (2 * (s.count / 2)) →
    ∃ t u v, exec .u8toi8 s = .next t ∧ exec .i8toi16 (t.aimed s.opnd.dstAddr d s.opnd.count) = .next u ∧
      exec (.cvt 1 2) (s.aimed s.opnd.srcAddr d s.opnd.count) = .next v ∧
      u.status = v.status ∧ v.status.err = false ∧ u.resultCount = v.resultCount ∧
      ∀ k, k < 2 * (s.count / 2) → u.byteAt (d.toNat + k) = v.byteAt (d.toNat + k))

/-- 40_sample_width.md section 1: on bytes, flip adds 128 to the signed value and subtracts it from the unsigned one, and
is its own inverse. The spec marks R101 as derived from two's complement, its general knowledge (R15; log entry 7). -/
def Obligations.FlipShiftsTheDomainBy128 : Prop :=
  ∀ b : Byte, ((flip b).toNat : Int) = b.toInt + 128 ∧ (flip b).toInt = (b.toNat : Int) - 128 ∧ flip (flip b) = b

/-- 40_sample_width.md section 1: join keeps the signed high byte and the unsigned low byte, and split and join are
inverse. The spec marks R103 as derived (log entry 7). -/
def Obligations.SplitAndJoinAreInverse : Prop :=
  (∀ hi lo : Byte, (join hi lo).toInt = hi.toInt * 256 + (lo.toNat : Int) ∧
    highByte ((join hi lo).setWidth 32) = hi ∧ lowByte ((join hi lo).setWidth 32) = lo) ∧
  (∀ h : BitVec 16, join (highByte (h.setWidth 32)) (lowByte (h.setWidth 32)) = h)

/-- 40_sample_width.md section 3, law 1 (marked derived there): I16TOI8 and then I8TOI16 on its output give the samples
back, with TRUNC = 0. -/
def Obligations.Int16SurvivesSplitThenJoin : Prop :=
  ∀ (s : State) (d c : Word), c.toNat = 2 * s.count →
    InRange s s.src (2 * s.count) → InRange s s.dst (2 * s.count) → InRange s d.toNat (2 * s.count) →
    ∃ t u, exec .i16toi8 s = .next t ∧ exec .i8toi16 (t.aimed s.opnd.dstAddr d c) = .next u ∧
      u.status.err = false ∧ u.status.trunc = false ∧ u.resultCount = s.opnd.count ∧
      ∀ k, k < 2 * s.count → u.byteAt (d.toNat + k) = s.byteAt (s.src + k)

/-- 40_sample_width.md section 3, law 2 (marked derived there): I8TOU8 then U8TOI8 give the bytes back, and so does the
other order. -/
def Obligations.BytesSurviveBothSignChanges : Prop :=
  ∀ (s : State) (d : Word),
    InRange s s.src s.count → InRange s s.dst s.count → InRange s d.toNat s.count →
    (∃ t u, exec .i8tou8 s = .next t ∧ exec .u8toi8 (t.aimed s.opnd.dstAddr d s.opnd.count) = .next u ∧
      u.status.err = false ∧ ∀ k, k < s.count → u.byteAt (d.toNat + k) = s.byteAt (s.src + k)) ∧
    (∃ t u, exec .u8toi8 s = .next t ∧ exec .i8tou8 (t.aimed s.opnd.dstAddr d s.opnd.count) = .next u ∧
      u.status.err = false ∧ ∀ k, k < s.count → u.byteAt (d.toNat + k) = s.byteAt (s.src + k))

/-- 40_sample_width.md section 3, law 3 (marked derived there): CVT int16,uint8 and then CVT uint8,int16 give the samples
back. -/
def Obligations.Int16SurvivesTheUint8Chain : Prop :=
  ∀ (s : State) (d c : Word), c.toNat = 2 * s.count →
    InRange s s.src (2 * s.count) → InRange s s.dst (2 * s.count) → InRange s d.toNat (2 * s.count) →
    ∃ t u, exec (.cvt 2 1) s = .next t ∧ exec (.cvt 1 2) (t.aimed s.opnd.dstAddr d c) = .next u ∧
      u.status.err = false ∧ u.status.trunc = false ∧
      ∀ k, k < 2 * s.count → u.byteAt (d.toNat + k) = s.byteAt (s.src + k)

/-- 40_sample_width.md section 3, law 4 (marked derived there): widening an int8 or uint8 array and narrowing it again
gives the array back, up to an odd last byte, for which the widening sets TRUNC. -/
def Obligations.WideningThenNarrowingKeepsWholePairs : Prop :=
  ∀ (s : State) (ty : Nat) (d c : Word), ty = 0 ∨ ty = 1 → c.toNat = s.count / 2 →
    InRange s s.src s.count → InRange s s.dst (2 * (s.count / 2)) → InRange s d.toNat (2 * (s.count / 2)) →
    ∃ t u, exec (.cvt ty 2) s = .next t ∧ exec (.cvt 2 ty) (t.aimed s.opnd.dstAddr d c) = .next u ∧
      t.status.trunc = decide (s.count % 2 = 1) ∧ u.status.err = false ∧
      ∀ k, k < 2 * (s.count / 2) → u.byteAt (d.toNat + k) = s.byteAt (s.src + k)

/-- 40_sample_width.md section 1: the family reads neither CFG.PIXW nor VAL_ADDR, CHANGED, CHANNELS or MSG_LEN: with any
other values there, RAM, RESULT_COUNT and STATUS end the same. -/
def Obligations.SampleCommandsIgnorePixelRegisters : Prop :=
  ∀ (i : Instr) (s t : State) (b : Bool) (va ch cn ml : Word),
    (i = .i8tou8 ∨ i = .u8toi8 ∨ i = .i16toi8 ∨ i = .i8toi16 ∨ ∃ st dt, i = .cvt st dt) →
    exec i s = .next t →
    ∃ u, exec i { s with
                  pixw := b
                  opnd := { s.opnd with valAddr := va, changed := ch, channels := cn, msgLen := ml } } = .next u ∧
      u.ram = t.ram ∧ u.resultCount = t.resultCount ∧ u.status = t.status

/-! ### The bit-plane family -/

/-- 10_state.md section 2 (R27), 00_scope.md section 4: CFG.PIXW selects 8-bit elements of one byte or 16-bit elements of
two. -/
def Obligations.PixwSelectsTheElementWidth : Prop :=
  ∀ s : State, (s.csrRead 0x00C = 0 → s.pixW = 8 ∧ s.pixB = 1) ∧ (s.csrRead 0x00C = 1 → s.pixW = 16 ∧ s.pixB = 2) ∧
    (s.csrRead 0x00C = 0 ∨ s.csrRead 0x00C = 1)

/-- GETBP, 41_bitplane.md R131. -/
def Obligations.GetbpReadsThePlane : Prop :=
  (∀ p, p < 256 → decode (BitVec.ofNat 32 (256 * p + 0x20)) = .ok (.getbp p)) ∧
  ReservedBitsRaise 0x20 65536 ∧
  ∀ (s : State) (p : Nat),
    (s.pixW ≤ p → ∃ t, exec (.getbp p) s = .next t ∧ Failed s t .invalidPlane) ∧
    (p < s.pixW →
      (InRange s s.src (s.count * s.pixB) ∧ InRange s s.dst (s.count * s.pixB) →
        ∃ t, exec (.getbp p) s = .next t ∧ Completed s t s.dst (s.count * s.pixB) s.count false ∧
          ∀ i, i < s.count →
            (t.memRead (s.dst + i * s.pixB) s.pixB).toNat = (s.memRead (s.src + i * s.pixB) s.pixB).toNat / 2 ^ p % 2) ∧
      (¬(InRange s s.src (s.count * s.pixB) ∧ InRange s s.dst (s.count * s.pixB)) →
        ∃ t, exec (.getbp p) s = .next t ∧ Failed s t .outOfRange))

/-- SETBP, 41_bitplane.md R132, bit by bit of each element: bit p is whether the whole plane value is nonzero, every other
bit is the source's. -/
def Obligations.SetbpWritesThePlane : Prop :=
  (∀ p, p < 256 → decode (BitVec.ofNat 32 (256 * p + 0x21)) = .ok (.setbp p)) ∧
  ReservedBitsRaise 0x21 65536 ∧
  ∀ (s : State) (p : Nat),
    (s.pixW ≤ p → ∃ t, exec (.setbp p) s = .next t ∧ Failed s t .invalidPlane) ∧
    (p < s.pixW →
      (InRange s s.src (s.count * s.pixB) ∧ InRange s s.val (s.count * s.pixB) ∧
          InRange s s.dst (s.count * s.pixB) →
        ∃ t, exec (.setbp p) s = .next t ∧ Completed s t s.dst (s.count * s.pixB) s.count false ∧
          ∀ i b, i < s.count → b < s.pixW →
            (t.memRead (s.dst + i * s.pixB) s.pixB).getLsbD b =
              if b = p then decide (s.memRead (s.val + i * s.pixB) s.pixB ≠ 0)
              else (s.memRead (s.src + i * s.pixB) s.pixB).getLsbD b) ∧
      (¬(InRange s s.src (s.count * s.pixB) ∧ InRange s s.val (s.count * s.pixB) ∧
          InRange s s.dst (s.count * s.pixB)) →
        ∃ t, exec (.setbp p) s = .next t ∧ Failed s t .outOfRange))

/-- SETBPP, 41_bitplane.md R133: as SETBP for the elements before CHANGED (all of them when CHANGED is at least COUNT), the
rest copied; the plane values are checked at all COUNT elements and not written. -/
def Obligations.SetbppWritesTheLeadingElements : Prop :=
  (∀ p, p < 256 → decode (BitVec.ofNat 32 (256 * p + 0x22)) = .ok (.setbpp p)) ∧
  ReservedBitsRaise 0x22 65536 ∧
  ∀ (s : State) (p : Nat),
    (s.pixW ≤ p → ∃ t, exec (.setbpp p) s = .next t ∧ Failed s t .invalidPlane) ∧
    (p < s.pixW →
      (InRange s s.src (s.count * s.pixB) ∧ InRange s s.val (s.count * s.pixB) ∧
          InRange s s.dst (s.count * s.pixB) →
        ∃ t, exec (.setbpp p) s = .next t ∧ Completed s t s.dst (s.count * s.pixB) s.count false ∧
          ∀ i b, i < s.count → b < s.pixW →
            (t.memRead (s.dst + i * s.pixB) s.pixB).getLsbD b =
              if b = p ∧ i < s.changed then decide (s.memRead (s.val + i * s.pixB) s.pixB ≠ 0)
              else (s.memRead (s.src + i * s.pixB) s.pixB).getLsbD b) ∧
      (¬(InRange s s.src (s.count * s.pixB) ∧ InRange s s.val (s.count * s.pixB) ∧
          InRange s s.dst (s.count * s.pixB)) →
        ∃ t, exec (.setbpp p) s = .next t ∧ Failed s t .outOfRange))

/-- 41_bitplane.md section 3, law 1 (marked derived there): GETBP of the plane SETBP wrote gives 1 for each nonzero plane
value and 0 for each zero one. -/
def Obligations.GetbpAfterSetbpGivesTheTruthOfTheValues : Prop :=
  ∀ (s : State) (p : Nat) (d : Word), p < s.pixW →
    InRange s s.src (s.count * s.pixB) → InRange s s.val (s.count * s.pixB) →
    InRange s s.dst (s.count * s.pixB) → InRange s d.toNat (s.count * s.pixB) →
    ∃ t u, exec (.setbp p) s = .next t ∧ exec (.getbp p) (t.aimed s.opnd.dstAddr d s.opnd.count) = .next u ∧
      u.status.err = false ∧
      ∀ i, i < s.count → u.memRead (d.toNat + i * s.pixB) s.pixB =
        if s.memRead (s.val + i * s.pixB) s.pixB = 0 then 0 else 1

/-- 41_bitplane.md section 3, law 2 (marked derived there; 90_conflicts.md C8): GETBP of the plane SETBPP wrote gives the
truth of the values before CHANGED and the source's own plane from there on. -/
def Obligations.GetbpAfterSetbppGivesTheHybridPlane : Prop :=
  ∀ (s : State) (p : Nat) (d : Word), p < s.pixW →
    InRange s s.src (s.count * s.pixB) → InRange s s.val (s.count * s.pixB) →
    InRange s s.dst (s.count * s.pixB) → InRange s d.toNat (s.count * s.pixB) →
    ∃ t u, exec (.setbpp p) s = .next t ∧ exec (.getbp p) (t.aimed s.opnd.dstAddr d s.opnd.count) = .next u ∧
      u.status.err = false ∧
      ∀ i, i < s.count → u.memRead (d.toNat + i * s.pixB) s.pixB =
        if i < s.changed then (if s.memRead (s.val + i * s.pixB) s.pixB = 0 then 0 else 1)
        else if (s.memRead (s.src + i * s.pixB) s.pixB).getLsbD p then 1 else 0

/-- 41_bitplane.md section 3, law 4 (marked derived there): SETBP with plane values that agree with the plane the elements
already have gives the elements back. -/
def Obligations.SetbpOfTheOwnPlaneIsTheSource : Prop :=
  ∀ (s : State) (p : Nat), p < s.pixW →
    InRange s s.src (s.count * s.pixB) → InRange s s.val (s.count * s.pixB) →
    InRange s s.dst (s.count * s.pixB) →
    (∀ i, i < s.count →
      decide (s.memRead (s.val + i * s.pixB) s.pixB ≠ 0) = (s.memRead (s.src + i * s.pixB) s.pixB).getLsbD p) →
    ∃ t, exec (.setbp p) s = .next t ∧ t.status.err = false ∧
      ∀ k, k < s.count * s.pixB → t.byteAt (s.dst + k) = s.byteAt (s.src + k)

/-- 41_bitplane.md section 3 (R135): in place, with the plane values apart from the buffer, writes to two distinct planes
commute. -/
def Obligations.DistinctPlaneWritesCommute : Prop :=
  ∀ (s : State) (p q : Nat) (v w : Word), p < s.pixW → q < s.pixW → p ≠ q → s.opnd.dstAddr = s.opnd.srcAddr →
    InRange s s.src (s.count * s.pixB) → InRange s v.toNat (s.count * s.pixB) → InRange s w.toNat (s.count * s.pixB) →
    (v.toNat + s.count * s.pixB ≤ s.src ∨ s.src + s.count * s.pixB ≤ v.toNat) →
    (w.toNat + s.count * s.pixB ≤ s.src ∨ s.src + s.count * s.pixB ≤ w.toNat) →
    ∃ t1 u1 t2 u2, exec (.setbp p) (s.withVal v) = .next t1 ∧ exec (.setbp q) (t1.withVal w) = .next u1 ∧
      exec (.setbp q) (s.withVal w) = .next t2 ∧ exec (.setbp p) (t2.withVal v) = .next u2 ∧
      u1.status.err = false ∧ u2.status.err = false ∧ ∀ a, u1.byteAt a = u2.byteAt a

/-! ### The frame family -/

/-- FENC, 42_framecodec.md R153: the plane, then the shape, then the three regions (the message at its full length); bit p
of element i is message bit i, the most significant of each byte first, while i is below min(8*L, cap); every other bit
is the source's; RESULT_COUNT is the number of message bytes embedded, and TRUNC says whether the message had more. -/
def Obligations.FencEmbedsTheMessage : Prop :=
  (∀ p, p < 256 → decode (BitVec.ofNat 32 (256 * p + 0x30)) = .ok (.fenc p)) ∧
  ReservedBitsRaise 0x30 65536 ∧
  ∀ (s : State) (p : Nat),
    (s.pixW ≤ p → ∃ t, exec (.fenc p) s = .next t ∧ Failed s t .invalidPlane) ∧
    (p < s.pixW →
      (s.channels = 0 ∨ s.count % s.channels ≠ 0 → ∃ t, exec (.fenc p) s = .next t ∧ Failed s t .shape) ∧
      (s.channels ≠ 0 → s.count % s.channels = 0 →
        (InRange s s.src (s.count * s.pixB) ∧ InRange s s.val s.msgLen ∧ InRange s s.dst (s.count * s.pixB) →
          ∃ t, exec (.fenc p) s = .next t ∧
            Completed s t s.dst (s.count * s.pixB) (min s.msgLen (s.count / 8)) (decide (8 * s.msgLen > s.count / 8 * 8)) ∧
            ∀ i b, i < s.count → b < s.pixW →
              (t.memRead (s.dst + i * s.pixB) s.pixB).getLsbD b =
                if b = p ∧ i < min (8 * s.msgLen) (s.count / 8 * 8) then
                  (s.byteAt (s.val + i / 8)).getLsbD (7 - i % 8)
                else (s.memRead (s.src + i * s.pixB) s.pixB).getLsbD b) ∧
        (¬(InRange s s.src (s.count * s.pixB) ∧ InRange s s.val s.msgLen ∧ InRange s s.dst (s.count * s.pixB)) →
          ∃ t, exec (.fenc p) s = .next t ∧ Failed s t .outOfRange)))

/-- FDEC, 42_framecodec.md R155: the plane, then the shape, then the two regions; output byte j packs bit p of elements 8j
to 8j+7, the first highest; RESULT_COUNT is COUNT div 8, and TRUNC says whether COUNT is no multiple of 8. -/
def Obligations.FdecExtractsTheMessage : Prop :=
  (∀ p, p < 256 → decode (BitVec.ofNat 32 (256 * p + 0x31)) = .ok (.fdec p)) ∧
  ReservedBitsRaise 0x31 65536 ∧
  ∀ (s : State) (p : Nat),
    (s.pixW ≤ p → ∃ t, exec (.fdec p) s = .next t ∧ Failed s t .invalidPlane) ∧
    (p < s.pixW →
      (s.channels = 0 ∨ s.count % s.channels ≠ 0 → ∃ t, exec (.fdec p) s = .next t ∧ Failed s t .shape) ∧
      (s.channels ≠ 0 → s.count % s.channels = 0 →
        (InRange s s.src (s.count * s.pixB) ∧ InRange s s.dst (s.count / 8) →
          ∃ t, exec (.fdec p) s = .next t ∧
            Completed s t s.dst (s.count / 8) (s.count / 8) (decide (s.count % 8 ≠ 0)) ∧
            ∀ j k, j < s.count / 8 → k < 8 →
              (t.byteAt (s.dst + j)).getLsbD (7 - k) =
                (s.memRead (s.src + (8 * j + k) * s.pixB) s.pixB).getLsbD p) ∧
        (¬(InRange s s.src (s.count * s.pixB) ∧ InRange s s.dst (s.count / 8)) →
          ∃ t, exec (.fdec p) s = .next t ∧ Failed s t .outOfRange)))

/-- 42_framecodec.md section 3, R156 (marked derived there): FDEC after FENC of a message that fits gives the message, and
after it the bytes that the source's own plane packs to. -/
def Obligations.EmbeddedMessageComesBack : Prop :=
  ∀ (s : State) (p : Nat) (d : Word), p < s.pixW → s.channels ≠ 0 → s.count % s.channels = 0 →
    InRange s s.src (s.count * s.pixB) → InRange s s.val s.msgLen → InRange s s.dst (s.count * s.pixB) →
    InRange s d.toNat (s.count / 8) → 8 * s.msgLen ≤ s.count / 8 * 8 →
    ∃ t u, exec (.fenc p) s = .next t ∧ exec (.fdec p) (t.aimed s.opnd.dstAddr d s.opnd.count) = .next u ∧
      t.status.trunc = false ∧ u.status.err = false ∧ u.resultCount.toNat = s.count / 8 ∧
      (∀ j, j < s.msgLen → u.byteAt (d.toNat + j) = s.byteAt (s.val + j)) ∧
      (∀ j k, s.msgLen ≤ j → j < s.count / 8 → k < 8 →
        (u.byteAt (d.toNat + j)).getLsbD (7 - k) = (s.memRead (s.src + (8 * j + k) * s.pixB) s.pixB).getLsbD p)

/-- 42_framecodec.md section 3, R157 (marked derived there): an oversized message is no error; TRUNC is set, and FDEC gives
back exactly the bytes that fit. -/
def Obligations.OversizedMessageIsTruncated : Prop :=
  ∀ (s : State) (p : Nat) (d : Word), p < s.pixW → s.channels ≠ 0 → s.count % s.channels = 0 →
    InRange s s.src (s.count * s.pixB) → InRange s s.val s.msgLen → InRange s s.dst (s.count * s.pixB) →
    InRange s d.toNat (s.count / 8) → s.count / 8 * 8 < 8 * s.msgLen →
    ∃ t u, exec (.fenc p) s = .next t ∧ exec (.fdec p) (t.aimed s.opnd.dstAddr d s.opnd.count) = .next u ∧
      t.status.err = false ∧ t.status.trunc = true ∧ u.status.err = false ∧ u.resultCount.toNat = s.count / 8 ∧
      ∀ j, j < s.count / 8 → u.byteAt (d.toNat + j) = s.byteAt (s.val + j)

/-- 42_framecodec.md section 3, R158 (marked derived there): FENC with plane p and then FDEC with another plane q gives
what FDEC q of the source image gives. -/
def Obligations.EmbeddingLeavesOtherPlanesReadable : Prop :=
  ∀ (s : State) (p q : Nat) (d : Word), p < s.pixW → q < s.pixW → p ≠ q → s.channels ≠ 0 →
    s.count % s.channels = 0 →
    InRange s s.src (s.count * s.pixB) → InRange s s.val s.msgLen → InRange s s.dst (s.count * s.pixB) →
    InRange s d.toNat (s.count / 8) →
    ∃ t u r, exec (.fenc p) s = .next t ∧ exec (.fdec q) (t.aimed s.opnd.dstAddr d s.opnd.count) = .next u ∧
      exec (.fdec q) (s.aimed s.opnd.srcAddr d s.opnd.count) = .next r ∧
      u.status.err = false ∧ r.status.err = false ∧
      ∀ j, j < s.count / 8 → u.byteAt (d.toNat + j) = r.byteAt (d.toNat + j)

/-- 42_framecodec.md section 1, R152 (marked derived there): the channel count changes no output. Two channel counts that
both pass the SHAPE check give the same RAM, RESULT_COUNT and STATUS. -/
def Obligations.ChannelCountChangesNoOutput : Prop :=
  ∀ (s : State) (p : Nat) (c d : Word), c ≠ 0 → s.count % c.toNat = 0 → d ≠ 0 → s.count % d.toNat = 0 →
    (∃ t u, exec (.fenc p) { s with opnd := { s.opnd with channels := c } } = .next t ∧
      exec (.fenc p) { s with opnd := { s.opnd with channels := d } } = .next u ∧
      t.ram = u.ram ∧ t.resultCount = u.resultCount ∧ t.status = u.status) ∧
    (∃ t u, exec (.fdec p) { s with opnd := { s.opnd with channels := c } } = .next t ∧
      exec (.fdec p) { s with opnd := { s.opnd with channels := d } } = .next u ∧
      t.ram = u.ram ∧ t.resultCount = u.resultCount ∧ t.status = u.status)
end

