-- ==== Sys2Proof/Laws/Assembler.lean ====
section
/-! SUPPORT. What the assembler reads of a line: its numbers, its operands, and its mnemonic. -/

namespace Sys2Proof.Machine

/-! ### Numbers -/

/-- A capital letter, or a character that toLower keeps. -/
theorem toLower_cases (c : Char) : c.toLower = c ∨ ∃ k : Fin 26, c = Char.ofNat (65 + k) := by
  by_cases h : 65 ≤ c.toNat ∧ c.toNat ≤ 90
  · refine .inr ⟨⟨c.toNat - 65, by omega⟩, ?_⟩
    rw [show 65 + (c.toNat - 65) = c.toNat by omega, Char.ofNat_toNat]
  · left
    unfold Char.toLower
    rw [dif_neg]
    exact h

theorem asmDigit_toLower (c : Char) : asmDigit 16 c.toLower = asmDigit 16 c := by
  have key : ∀ k : Fin 26, asmDigit 16 (Char.ofNat (65 + k)).toLower = asmDigit 16 (Char.ofNat (65 + k)) := by decide
  rcases toLower_cases c with h | ⟨k, rfl⟩
  · rw [h]
  · exact key k

theorem asmDigits_map_toLower (cs : List Char) (acc : Nat) :
    asmDigits 16 acc (cs.map Char.toLower) = asmDigits 16 acc cs := by
  induction cs generalizing acc with
  | nil => rfl
  | cons c rest ih =>
    rw [List.map_cons, asmDigits, asmDigits, asmDigit_toLower]
    split
    · exact ih _
    · rfl

theorem asmDigits_append (base acc : Nat) (xs ys : List Char) :
    asmDigits base acc (xs ++ ys) = (asmDigits base acc xs).bind (fun a => asmDigits base a ys) := by
  induction xs generalizing acc with
  | nil => rfl
  | cons c rest ih =>
    rw [List.cons_append, asmDigits, asmDigits]
    split
    · exact ih _
    · rfl

theorem asmDigit_digitChar {base d : Nat} (hb : base = 10 ∨ base = 16) (hd : d < base) :
    asmDigit base d.digitChar = some d := by
  have ten : ∀ k : Fin 10, asmDigit 10 (k : Nat).digitChar = some (k : Nat) := by decide
  have sixteen : ∀ k : Fin 16, asmDigit 16 (k : Nat).digitChar = some (k : Nat) := by decide
  rcases hb with rfl | rfl
  · exact ten ⟨d, hd⟩
  · exact sixteen ⟨d, hd⟩

/-- The digits of a number read back as the number. -/
theorem asmDigits_toDigits {base : Nat} (hb : base = 10 ∨ base = 16) (n : Nat) :
    asmDigits base 0 (Nat.toDigits base n) = some n := by
  have h1 : 1 < base := by omega
  induction n using Nat.strongRecOn with
  | ind n ih =>
    rw [Nat.toDigits_eq_if h1]
    split
    · next h => rw [asmDigits, asmDigit_digitChar hb h]; simp [asmDigits]
    · next h =>
      rw [asmDigits_append, ih (n / base) (Nat.div_lt_self (by omega) h1), Option.bind_some, asmDigits,
        asmDigit_digitChar hb (Nat.mod_lt _ (by omega))]
      simp [asmDigits, Nat.div_add_mod]

theorem toDigits_ne_nil {base : Nat} (hb : base = 10 ∨ base = 16) (n : Nat) : Nat.toDigits base n ≠ [] := by
  rw [Nat.toDigits_eq_if (by omega)]
  split <;> simp

/-- A character that neither ends an operand nor is trimmed from it. -/
def asmPlain (c : Char) : Bool := !asmSpace c && c != ','

theorem asmPlain_of_digit {base : Nat} {c : Char} {d : Nat} (h : asmDigit base c = some d) : asmPlain c = true := by
  by_contra hc
  simp only [asmPlain, asmSpace, Bool.and_eq_true, Bool.not_eq_true', Bool.or_eq_false_iff, bne_iff_ne, ne_eq, beq_eq_false_iff_ne,
    not_and, not_not] at hc
  by_cases h1 : c = ' '
  · subst h1; simp [asmDigit] at h
  · by_cases h2 : c = '\t'
    · subst h2; simp [asmDigit] at h
    · have := hc ⟨h1, h2⟩
      subst this
      simp [asmDigit] at h

theorem asmPlain_of_digits {base acc n : Nat} {cs : List Char} (h : asmDigits base acc cs = some n) :
    ∀ c ∈ cs, asmPlain c = true := by
  induction cs generalizing acc with
  | nil => simp
  | cons c rest ih =>
    rw [asmDigits] at h
    split at h
    · next d hd =>
      intro x hx
      rcases List.mem_cons.mp hx with rfl | hx
      · exact asmPlain_of_digit hd
      · exact ih h x hx
    · cases h

/-- Decimal digits are no hexadecimal prefix. -/
theorem asmNumber_of_decimal {cs : List Char} {n : Nat} (hne : cs ≠ []) (h : asmDigits 10 0 cs = some n) :
    asmNumber cs = some n := by
  unfold asmNumber
  split
  · exact absurd rfl hne
  · exact absurd ((rfl : asmDigits 10 0 ['0', 'x'] = none).symm.trans h) nofun
  · next digits _ => exact absurd ((rfl : asmDigits 10 0 ('0' :: 'x' :: digits) = none).symm.trans h) nofun
  · exact h

/-- A numeral is read as its number, and is a plain text. -/
theorem asmNumber_numeral {text : List Char} {n : Nat} (h : IsNumeral text n) :
    asmNumber text = some n ∧ text ≠ [] ∧ ∀ c ∈ text, asmPlain c = true := by
  rcases h with rfl | ⟨digits, rfl, hd⟩
  · have hr := asmDigits_toDigits (base := 10) (.inl rfl) n
    have hne := toDigits_ne_nil (base := 10) (.inl rfl) n
    exact ⟨asmNumber_of_decimal hne hr, hne, asmPlain_of_digits hr⟩
  · have hr : asmDigits 16 0 digits = some n := by
      rw [← asmDigits_map_toLower, hd]
      exact asmDigits_toDigits (.inr rfl) n
    have hne : digits ≠ [] := by
      rintro rfl
      exact toDigits_ne_nil (base := 16) (.inr rfl) n hd.symm
    refine ⟨?_, by simp, ?_⟩
    · cases digits with
      | nil => exact absurd rfl hne
      | cons d rest => exact hr
    · intro c hc
      simp only [List.mem_cons] at hc
      rcases hc with rfl | rfl | hc
      · decide
      · decide
      · exact asmPlain_of_digits hr c hc

/-- A type's text is read as its code, or refused where the code does not fit, and is a plain text. -/
theorem asmType_typeText {text : List Char} {code : Nat} (h : IsTypeText text code) :
    asmType text = (if code < 16 then .ok code else .error .doesNotFit) ∧ text ≠ [] ∧
      ∀ c ∈ text, asmPlain c = true := by
  rcases h with ⟨rfl, rfl⟩ | ⟨rfl, rfl⟩ | ⟨rfl, rfl⟩ | ⟨digits, rfl, hd⟩
  · exact ⟨by decide, by decide, List.all_eq_true.mp (by decide)⟩
  · exact ⟨by decide, by decide, List.all_eq_true.mp (by decide)⟩
  · exact ⟨by decide, by decide, List.all_eq_true.mp (by decide)⟩
  · obtain ⟨hn, -, hp⟩ := asmNumber_numeral hd
    refine ⟨?_, by simp, ?_⟩
    · have : asmTypeName ('#' :: digits) = none := by simp [asmTypeName]
      simp [asmType, this, hn, typeCodeFits]
    · intro c hc
      rcases List.mem_cons.mp hc with rfl | hc
      · decide
      · exact hp c hc

/-! ### The parts of a line -/

/-- Nothing is trimmed from a text that begins and ends without a space. -/
theorem asmTrim_of_ends {cs : List Char} (hne : cs ≠ []) (hfirst : asmSpace (cs.head hne) = false)
    (hlast : asmSpace (cs.getLast hne) = false) : asmTrim cs = cs := by
  have drop : ∀ (l : List Char) (h : l ≠ []), asmSpace (l.head h) = false → l.dropWhile asmSpace = l := by
    intro l h hl
    cases l with
    | nil => rfl
    | cons c rest => simp only [List.head_cons] at hl; simp [hl]
  unfold asmTrim
  rw [drop cs hne hfirst, drop cs.reverse (by simpa using hne) (by rw [List.head_reverse]; exact hlast),
    List.reverse_reverse]

theorem asmTrim_space (cs : List Char) : asmTrim (' ' :: cs) = asmTrim cs := rfl

theorem not_space_of_plain {c : Char} (h : asmPlain c = true) : asmSpace c = false := by
  simp only [asmPlain, Bool.and_eq_true, Bool.not_eq_true'] at h
  exact h.1

theorem not_comma_of_plain {c : Char} (h : asmPlain c = true) : c ≠ ',' := by
  simp only [asmPlain, Bool.and_eq_true, bne_iff_ne] at h
  exact h.2

theorem asmTrim_plain {cs : List Char} (hne : cs ≠ []) (h : ∀ c ∈ cs, asmPlain c = true) : asmTrim cs = cs :=
  asmTrim_of_ends hne (not_space_of_plain (h _ (List.head_mem hne))) (not_space_of_plain (h _ (List.getLast_mem hne)))

theorem asmSplit_plain {cs : List Char} (h : ∀ c ∈ cs, c ≠ ',') : asmSplit cs = [cs] := by
  induction cs with
  | nil => rfl
  | cons c rest ih =>
    rw [asmSplit, if_neg (h c (by simp)), ih (fun x hx => h x (by simp [hx]))]

theorem asmSplit_comma {xs : List Char} (ys : List Char) (h : ∀ c ∈ xs, c ≠ ',') :
    asmSplit (xs ++ ',' :: ys) = xs :: asmSplit ys := by
  induction xs with
  | nil => rw [List.nil_append, asmSplit, if_pos rfl]
  | cons c rest ih =>
    rw [List.cons_append, asmSplit, if_neg (h c (by simp)), ih (fun x hx => h x (by simp [hx]))]

/-- One plain operand. -/
theorem asmOperands_one {text : List Char} (hne : text ≠ []) (h : ∀ c ∈ text, asmPlain c = true) :
    asmOperands (' ' :: text) = [text] := by
  have hs : asmSplit (' ' :: text) = [' ' :: text] := by
    apply asmSplit_plain
    intro c hc
    rcases List.mem_cons.mp hc with rfl | hc
    · decide
    · exact not_comma_of_plain (h c hc)
  rw [asmOperands, asmTrim_space, asmTrim_plain hne h, if_neg hne, hs, List.map_singleton, asmTrim_space,
    asmTrim_plain hne h]

theorem space_cons_no_comma {cs : List Char} (h : ∀ c ∈ cs, asmPlain c = true) : ∀ c ∈ ' ' :: cs, c ≠ ',' := by
  intro c hc
  rcases List.mem_cons.mp hc with rfl | hc
  · decide
  · exact not_comma_of_plain (h c hc)

/-- Two plain operands. -/
theorem asmOperands_two {xs ys : List Char} (hx : xs ≠ []) (px : ∀ c ∈ xs, asmPlain c = true) (hy : ys ≠ [])
    (py : ∀ c ∈ ys, asmPlain c = true) : asmOperands (' ' :: (xs ++ ',' :: ' ' :: ys)) = [xs, ys] := by
  have hne : xs ++ ',' :: ' ' :: ys ≠ [] := by simp
  have ht : asmTrim (xs ++ ',' :: ' ' :: ys) = xs ++ ',' :: ' ' :: ys := by
    apply asmTrim_of_ends hne
    · rw [List.head_append_of_ne_nil hx]
      exact not_space_of_plain (px _ (List.head_mem hx))
    · rw [List.getLast_append_of_ne_nil _ (by simp), List.getLast_cons (by simp), List.getLast_cons hy]
      exact not_space_of_plain (py _ (List.getLast_mem hy))
  have hs : asmSplit (' ' :: (xs ++ ',' :: ' ' :: ys)) = [' ' :: xs, ' ' :: ys] := by
    rw [← List.cons_append, asmSplit_comma _ (space_cons_no_comma px), asmSplit_plain (space_cons_no_comma py)]
  rw [asmOperands, asmTrim_space, ht, if_neg hne, hs]
  simp only [List.map_cons, List.map_nil, asmTrim_space, asmTrim_plain hx px, asmTrim_plain hy py]

theorem asmOperands_nil : asmOperands [] = [] := rfl

/-- A mnemonic in any case holds no space. -/
theorem not_space_of_lower {name low : List Char} (h : name.map Char.toLower = low)
    (hl : low.all (fun c => !asmSpace c) = true) : ∀ c ∈ name, asmSpace c = false := by
  intro c hc
  subst h
  rw [List.all_map, List.all_eq_true] at hl
  have h1 := hl c hc
  by_contra hs
  simp only [asmSpace, Bool.not_eq_false, Bool.or_eq_true, beq_iff_eq] at hs
  rcases hs with rfl | rfl
  · exact absurd h1 (by decide)
  · exact absurd h1 (by decide)

/-- What assemble makes of a line of a mnemonic and a rest: the lower-case name, and the operands of the rest. -/
theorem line_parts {name rest : List Char} (hn : ∀ c ∈ name, asmSpace c = false)
    (hr : asmTrim (name ++ ' ' :: rest) = name ++ ' ' :: rest) :
    (asmTrim (name ++ ' ' :: rest)).takeWhile (fun c => !asmSpace c) = name ∧
      (asmTrim (name ++ ' ' :: rest)).dropWhile (fun c => !asmSpace c) = ' ' :: rest := by
  rw [hr, List.takeWhile_append_of_pos (by simpa using hn), List.dropWhile_append_of_pos (by simpa using hn)]
  simp [asmSpace]

/-- A line whose rest ends without a space is trimmed of nothing. -/
theorem asmTrim_line {name rest : List Char} (hne : name ≠ []) (hn : ∀ c ∈ name, asmSpace c = false) (hr : rest ≠ [])
    (hlast : asmSpace (rest.getLast hr) = false) : asmTrim (name ++ ' ' :: rest) = name ++ ' ' :: rest := by
  apply asmTrim_of_ends (by simp)
  · rw [List.head_append_of_ne_nil hne]
    exact hn _ (List.head_mem hne)
  · rw [List.getLast_append_of_ne_nil _ (by simp), List.getLast_cons hr]
    exact hlast

/-- A mnemonic alone: nothing is trimmed, and nothing is left for operands. -/
theorem bare_parts {name : List Char} (hne : name ≠ []) (hn : ∀ c ∈ name, asmSpace c = false) :
    (asmTrim name).takeWhile (fun c => !asmSpace c) = name ∧ (asmTrim name).dropWhile (fun c => !asmSpace c) = [] := by
  rw [asmTrim_of_ends hne (hn _ (List.head_mem hne)) (hn _ (List.getLast_mem hne))]
  constructor
  · rw [List.takeWhile_eq_self_iff]; simpa using hn
  · rw [List.dropWhile_eq_nil_iff]; simpa using hn

end Sys2Proof.Machine
end

