-- ==== Sys2Proof/Laws/Decode.lean ====
section
/-! SUPPORT. The fields of a word and of an encoding as numbers, and the one inversion of the decoder. -/

namespace Sys2Proof

/-- A field is a quotient and a remainder of the word. -/
theorem field_eq (w : Word) (lo len : Nat) : field w lo len = w.toNat / 2 ^ lo % 2 ^ len := by
  simp [field, BitVec.extractLsb'_toNat, Nat.shiftRight_eq_div_pow]

theorem opField_eq (w : Word) : opField w = w.toNat % 256 := by
  rw [opField, field_eq]; omega

theorem planeField_eq (w : Word) : planeField w = w.toNat / 256 % 256 := field_eq w 8 8

theorem stypeField_eq (w : Word) : stypeField w = w.toNat / 256 % 16 := field_eq w 8 4

theorem dtypeField_eq (w : Word) : dtypeField w = w.toNat / 4096 % 16 := field_eq w 12 4

theorem field_8_24_eq (w : Word) : field w 8 24 = w.toNat / 256 := by
  have := w.isLt
  rw [field_eq]; omega

theorem field_16_16_eq (w : Word) : field w 16 16 = w.toNat / 65536 := by
  have := w.isLt
  rw [field_eq]; omega

/-- An opcode is one byte. -/
theorem Instr.opcode_lt (i : Instr) : i.opcode < 256 := by cases i <;> simp [Instr.opcode]

/-- A well-formed command's operands fill one byte. -/
theorem Instr.operandByte_lt {i : Instr} (h : i.wellFormed = true) : i.operandByte < 256 := by
  cases i <;> simp_all [Instr.wellFormed, Instr.operandByte, planeFits, typeCodeFits]
  omega

/-- A well-formed command's word as a number. -/
theorem toNat_encode {i : Instr} (h : i.wellFormed = true) : (encode i).toNat = 256 * i.operandByte + i.opcode := by
  have h1 := Instr.opcode_lt i
  have h2 := Instr.operandByte_lt h
  simp only [encode, BitVec.toNat_ofNat]
  omega

/-- A conditional equation, by its two branches. -/
theorem ite_eq_cases {α : Type} {c : Prop} [Decidable c] {a b x : α} (h : (if c then a else b) = x) :
    (c ∧ a = x) ∨ (¬c ∧ b = x) := by
  by_cases hc : c
  · exact .inl ⟨hc, by rwa [if_pos hc] at h⟩
  · exact .inr ⟨hc, by rwa [if_neg hc] at h⟩

/-- decodeN answers the command only when bits 31:8 are 0. -/
theorem decodeN_ok {w : Word} {i j : Instr} (h : decodeN w i = .ok j) : j = i ∧ w.toNat / 256 = 0 := by
  rcases ite_eq_cases h with ⟨hz, hi⟩ | ⟨_, he⟩
  · exact ⟨by injection hi with hi; exact hi.symm, by rwa [field_8_24_eq] at hz⟩
  · cases he

/-- decodeHalf answers the command only when bits 31:16 are 0. -/
theorem decodeHalf_ok {w : Word} {i j : Instr} (h : decodeHalf w i = .ok j) : j = i ∧ w.toNat / 65536 = 0 := by
  rcases ite_eq_cases h with ⟨hz, hi⟩ | ⟨_, he⟩
  · exact ⟨by injection hi with hi; exact hi.symm, by rwa [field_16_16_eq] at hz⟩
  · cases he

/-- The one inversion of the decoder: a word that decodes is of format N with nothing above the opcode, or of format T or
P with nothing above bit 15. -/
theorem decode_cases {w : Word} {i : Instr} (h : decode w = .ok i) :
    (w.toNat = i.opcode ∧ (i = .i8tou8 ∨ i = .u8toi8 ∨ i = .i16toi8 ∨ i = .i8toi16)) ∨
    (w.toNat / 65536 = 0 ∧ w.toNat % 256 = i.opcode ∧
      (i = .cvt (w.toNat / 256 % 16) (w.toNat / 4096 % 16) ∨
       ∃ p, p = w.toNat / 256 % 256 ∧ (i = .getbp p ∨ i = .setbp p ∨ i = .setbpp p ∨ i = .fenc p ∨ i = .fdec p))) := by
  simp only [decode, opField_eq, planeField_eq, stypeField_eq, dtypeField_eq] at h
  rcases ite_eq_cases h with ⟨ho, h⟩ | ⟨_, h⟩
  · obtain ⟨rfl, hz⟩ := decodeN_ok h
    exact .inl ⟨by simp only [Instr.opcode]; omega, by simp⟩
  rcases ite_eq_cases h with ⟨ho, h⟩ | ⟨_, h⟩
  · obtain ⟨rfl, hz⟩ := decodeN_ok h
    exact .inl ⟨by simp only [Instr.opcode]; omega, by simp⟩
  rcases ite_eq_cases h with ⟨ho, h⟩ | ⟨_, h⟩
  · obtain ⟨rfl, hz⟩ := decodeN_ok h
    exact .inl ⟨by simp only [Instr.opcode]; omega, by simp⟩
  rcases ite_eq_cases h with ⟨ho, h⟩ | ⟨_, h⟩
  · obtain ⟨rfl, hz⟩ := decodeN_ok h
    exact .inl ⟨by simp only [Instr.opcode]; omega, by simp⟩
  rcases ite_eq_cases h with ⟨ho, h⟩ | ⟨_, h⟩
  · obtain ⟨rfl, hz⟩ := decodeHalf_ok h
    exact .inr ⟨hz, ho, .inl rfl⟩
  rcases ite_eq_cases h with ⟨ho, h⟩ | ⟨_, h⟩
  · obtain ⟨rfl, hz⟩ := decodeHalf_ok h
    exact .inr ⟨hz, ho, .inr ⟨_, rfl, .inl rfl⟩⟩
  rcases ite_eq_cases h with ⟨ho, h⟩ | ⟨_, h⟩
  · obtain ⟨rfl, hz⟩ := decodeHalf_ok h
    exact .inr ⟨hz, ho, .inr ⟨_, rfl, .inr (.inl rfl)⟩⟩
  rcases ite_eq_cases h with ⟨ho, h⟩ | ⟨_, h⟩
  · obtain ⟨rfl, hz⟩ := decodeHalf_ok h
    exact .inr ⟨hz, ho, .inr ⟨_, rfl, .inr (.inr (.inl rfl))⟩⟩
  rcases ite_eq_cases h with ⟨ho, h⟩ | ⟨_, h⟩
  · obtain ⟨rfl, hz⟩ := decodeHalf_ok h
    exact .inr ⟨hz, ho, .inr ⟨_, rfl, .inr (.inr (.inr (.inl rfl)))⟩⟩
  rcases ite_eq_cases h with ⟨ho, h⟩ | ⟨_, h⟩
  · obtain ⟨rfl, hz⟩ := decodeHalf_ok h
    exact .inr ⟨hz, ho, .inr ⟨_, rfl, .inr (.inr (.inr (.inr rfl)))⟩⟩
  cases h

end Sys2Proof
end

