-- ==== Sys2Proof/Laws/Memory.lean ====
section
/-! SUPPORT. The laws of the buffer RAM as data: read after write, the canonical form, and the listed offsets' bound, for
one byte, for a little-endian value and for a row of elements. -/

namespace Sys2Proof.Machine

/-! ### One byte -/

theorem Memory.find?_write (m : Memory) (a x : Nat) (v : Byte) :
    (m.write a v).find? x = if x = a then some v else m.find? x := by
  induction m with
  | nil => simp [Memory.write, Memory.find?]
  | cons c rest ih =>
    obtain ⟨b, u⟩ := c
    simp only [Memory.write]
    split
    · simp only [Memory.find?]
    · split
      · next h => subst h; simp only [Memory.find?]; split <;> rfl
      · next h => simp only [Memory.find?, ih]; split <;> split <;> simp_all

theorem Memory.risingFrom_write {lo a : Nat} {m : Memory} (v : Byte) (hlo : lo < a) (h : m.risingFrom lo = true) :
    (m.write a v).risingFrom lo = true := by
  induction m generalizing lo with
  | nil => simp [Memory.write, Memory.risingFrom, hlo]
  | cons c rest ih =>
    obtain ⟨b, u⟩ := c
    simp only [Memory.risingFrom, Bool.and_eq_true, decide_eq_true_eq] at h
    simp only [Memory.write]
    split
    · next hab => simp [Memory.risingFrom, hlo, hab, h.2]
    · split
      · next hab => subst hab; simp [Memory.risingFrom, h.1, h.2]
      · next h1 h2 => simp [Memory.risingFrom, h.1, ih (by omega) h.2]

/-- A write keeps the canonical form. -/
theorem Memory.wf_write {m : Memory} (a : Nat) (v : Byte) (h : m.wf = true) : (m.write a v).wf = true := by
  cases m with
  | nil => rfl
  | cons c rest =>
    obtain ⟨b, u⟩ := c
    simp only [Memory.wf] at h
    simp only [Memory.write]
    split
    · next hab => simp [Memory.wf, Memory.risingFrom, hab, h]
    · split
      · next hab => subst hab; exact h
      · next h1 h2 => exact Memory.risingFrom_write v (by omega) h

/-- A write inside the bound keeps every listed offset inside it. -/
theorem Memory.below_write {m : Memory} {a bound : Nat} (v : Byte) (ha : a < bound) (h : m.below bound = true) :
    (m.write a v).below bound = true := by
  induction m with
  | nil => simp [Memory.write, Memory.below, ha]
  | cons c rest ih =>
    obtain ⟨b, u⟩ := c
    simp only [Memory.below, List.all_cons, Bool.and_eq_true, decide_eq_true_eq] at h ih
    simp only [Memory.write]
    split
    · simp [Memory.below, ha, h.1]; simpa using h.2
    · split
      · next hab => subst hab; simp [Memory.below, ha]; simpa using h.2
      · simp only [Memory.below, List.all_cons, Bool.and_eq_true, decide_eq_true_eq]
        exact ⟨h.1, ih h.2⟩

/-! ### The canonical form is one form -/

theorem Memory.find?_of_risingFrom {lo a : Nat} {m : Memory} (h : m.risingFrom lo = true) (ha : a ≤ lo) :
    m.find? a = none := by
  induction m generalizing lo with
  | nil => rfl
  | cons c rest ih =>
    obtain ⟨b, u⟩ := c
    simp only [Memory.risingFrom, Bool.and_eq_true, decide_eq_true_eq] at h
    simp only [Memory.find?, if_neg (show a ≠ b by omega)]
    exact ih h.2 (by omega)

/-- Two canonical memories with the same written bytes are the same data. -/
theorem Memory.eq_of_find? {m n : Memory} (hm : m.wf = true) (hn : n.wf = true)
    (h : ∀ a, m.find? a = n.find? a) : m = n := by
  induction m generalizing n with
  | nil =>
    cases n with
    | nil => rfl
    | cons c rest => obtain ⟨b, u⟩ := c; simpa [Memory.find?] using h b
  | cons c rest ih =>
    obtain ⟨b, u⟩ := c
    cases n with
    | nil => simpa [Memory.find?] using h b
    | cons c' rest' =>
      obtain ⟨b', u'⟩ := c'
      simp only [Memory.wf] at hm hn
      have hb : b = b' := by
        rcases Nat.lt_trichotomy b b' with hlt | heq | hgt
        · have := h b
          simp [Memory.find?, Nat.ne_of_lt hlt, Memory.find?_of_risingFrom hn (Nat.le_of_lt hlt)] at this
        · exact heq
        · have := h b'
          simp [Memory.find?, Nat.ne_of_lt hgt, Memory.find?_of_risingFrom hm (Nat.le_of_lt hgt)] at this
      subst hb
      have hu : u = u' := by simpa [Memory.find?] using h b
      subst hu
      have wfTail : ∀ {k : Memory}, k.risingFrom b = true → k.wf = true := by
        intro k hk
        cases k with
        | nil => rfl
        | cons c rest =>
          obtain ⟨d, e⟩ := c
          simp only [Memory.risingFrom, Bool.and_eq_true] at hk
          exact hk.2
      have : rest = rest' := by
        apply ih (wfTail hm) (wfTail hn)
        intro a
        by_cases hab : a = b
        · subst hab
          rw [Memory.find?_of_risingFrom hm (Nat.le_refl _), Memory.find?_of_risingFrom hn (Nat.le_refl _)]
        · simpa [Memory.find?, hab] using h a
      rw [this]

/-! ### A little-endian value -/

/-- After MemWrite, the byte at distance k from the base is byte k of the value; every other offset is as before. -/
theorem Memory.find?_writeLE (m : Memory) (a n x : Nat) (v : Word) :
    (m.writeLE a n v).find? x =
      if a ≤ x ∧ x < a + n then some ((v >>> (8 * (x - a))).setWidth 8) else m.find? x := by
  induction n generalizing m a v with
  | zero => simp [Memory.writeLE]
  | succ k ih =>
    rw [Memory.writeLE, ih, Memory.find?_write]
    by_cases hx : x = a
    · subst hx; simp
    · rw [if_neg hx]
      by_cases hin : a ≤ x ∧ x < a + (k + 1)
      · have hle : a + 1 ≤ x ∧ x < a + 1 + k := by omega
        rw [if_pos hin, if_pos hle, ← BitVec.shiftRight_add]
        congr 3
        omega
      · rw [if_neg hin, if_neg (by omega)]

theorem Memory.wf_writeLE {m : Memory} (a n : Nat) (v : Word) (h : m.wf = true) : (m.writeLE a n v).wf = true := by
  induction n generalizing m a v with
  | zero => exact h
  | succ k ih => exact ih _ _ (Memory.wf_write _ _ h)

theorem Memory.below_writeLE {m : Memory} {a n bound : Nat} (v : Word) (ha : a + n ≤ bound)
    (h : m.below bound = true) : (m.writeLE a n v).below bound = true := by
  induction n generalizing m a v with
  | zero => exact h
  | succ k ih => exact ih _ (by omega) (Memory.below_write _ (by omega) h)

/-! ### A row of elements -/

theorem Memory.find?_writeElems_outside (m : Memory) (base size : Nat) (lane : Nat → Word) (n x : Nat)
    (hx : ¬(base ≤ x ∧ x < base + n * size)) :
    (m.writeElems base size lane n).find? x = m.find? x := by
  induction n with
  | zero => rfl
  | succ k ih =>
    rw [Nat.succ_mul] at hx
    rw [Memory.writeElems, Memory.find?_writeLE, if_neg (by omega), ih (by omega)]

/-- After ElemW of elements 0 to n-1, byte j of element i is byte j of `lane i`. -/
theorem Memory.find?_writeElems (m : Memory) (base size : Nat) (lane : Nat → Word) (n i j : Nat)
    (hi : i < n) (hj : j < size) :
    (m.writeElems base size lane n).find? (base + i * size + j) = some ((lane i >>> (8 * j)).setWidth 8) := by
  induction n with
  | zero => omega
  | succ k ih =>
    rw [Memory.writeElems, Memory.find?_writeLE]
    by_cases hik : i = k
    · subst hik
      rw [if_pos (by omega)]
      congr 4
      omega
    · have hlt : i + 1 ≤ k := by omega
      have := Nat.mul_le_mul_right size hlt
      rw [Nat.succ_mul] at this
      rw [if_neg (by omega), ih (by omega)]

theorem Memory.wf_writeElems {m : Memory} (base size : Nat) (lane : Nat → Word) (n : Nat) (h : m.wf = true) :
    (m.writeElems base size lane n).wf = true := by
  induction n with
  | zero => exact h
  | succ k ih => exact Memory.wf_writeLE _ _ _ ih

theorem Memory.below_writeElems {m : Memory} {base size n bound : Nat} (lane : Nat → Word)
    (hb : base + n * size ≤ bound) (h : m.below bound = true) :
    (m.writeElems base size lane n).below bound = true := by
  induction n with
  | zero => exact h
  | succ k ih =>
    rw [Nat.succ_mul] at hb
    exact Memory.below_writeLE _ (by omega) (ih (by omega))

/-- Nothing to write changes nothing: the case of an empty destination at any offset. -/
theorem Memory.writeElems_zero (m : Memory) (base size : Nat) (lane : Nat → Word) :
    m.writeElems base size lane 0 = m := rfl

/-- The reset state's memory is in the canonical form. -/
theorem State.reset_wf : State.reset.ram.wf = true := rfl

/-- The canonical form, as each operation keeps it, is kept by a reset too. -/
theorem State.assertReset_wf (s : State) : s.assertReset.ram.wf = true := rfl

end Sys2Proof.Machine
end

