-- ==== Sys2Proof/Laws/State.lean ====
section
/-! SUPPORT. What each update of the state does to each field, so that no later proof unfolds a record update. -/

namespace Sys2Proof.Machine

/-! ### State.issue -/

@[simp] theorem State.issue_status (s : State) (w : Word) : (s.issue w).status = { busy := true, done := false, err := false, trunc := false, errCode := .none } := rfl
@[simp] theorem State.issue_pixw (s : State) (w : Word) : (s.issue w).pixw = s.pixw := rfl
@[simp] theorem State.issue_opnd (s : State) (w : Word) : (s.issue w).opnd = s.opnd := rfl
@[simp] theorem State.issue_resultCount (s : State) (w : Word) : (s.issue w).resultCount = s.resultCount := rfl
@[simp] theorem State.issue_lastCmd (s : State) (w : Word) : (s.issue w).lastCmd = w := rfl
@[simp] theorem State.issue_ram (s : State) (w : Word) : (s.issue w).ram = s.ram := rfl
@[simp] theorem State.issue_ramEpoch (s : State) (w : Word) : (s.issue w).ramEpoch = s.ramEpoch := rfl
@[simp] theorem State.issue_bufBytes (s : State) (w : Word) : (s.issue w).bufBytes = s.bufBytes := rfl
@[simp] theorem State.issue_env (s : State) (w : Word) : (s.issue w).env = s.env := rfl

/-! ### State.complete -/

@[simp] theorem State.complete_status (s : State) (n : Nat) (t : Bool) : (s.complete n t).status = { busy := false, done := true, err := false, trunc := t, errCode := .none } := rfl
@[simp] theorem State.complete_pixw (s : State) (n : Nat) (t : Bool) : (s.complete n t).pixw = s.pixw := rfl
@[simp] theorem State.complete_opnd (s : State) (n : Nat) (t : Bool) : (s.complete n t).opnd = s.opnd := rfl
@[simp] theorem State.complete_resultCount (s : State) (n : Nat) (t : Bool) : (s.complete n t).resultCount = BitVec.ofNat 32 n := rfl
@[simp] theorem State.complete_lastCmd (s : State) (n : Nat) (t : Bool) : (s.complete n t).lastCmd = s.lastCmd := rfl
@[simp] theorem State.complete_ram (s : State) (n : Nat) (t : Bool) : (s.complete n t).ram = s.ram := rfl
@[simp] theorem State.complete_ramEpoch (s : State) (n : Nat) (t : Bool) : (s.complete n t).ramEpoch = s.ramEpoch := rfl
@[simp] theorem State.complete_bufBytes (s : State) (n : Nat) (t : Bool) : (s.complete n t).bufBytes = s.bufBytes := rfl
@[simp] theorem State.complete_env (s : State) (n : Nat) (t : Bool) : (s.complete n t).env = s.env := rfl

/-! ### State.raise -/

@[simp] theorem State.raise_status (s : State) (e : ErrCode) : (s.raise e).status = { busy := false, done := true, err := true, trunc := false, errCode := e } := rfl
@[simp] theorem State.raise_pixw (s : State) (e : ErrCode) : (s.raise e).pixw = s.pixw := rfl
@[simp] theorem State.raise_opnd (s : State) (e : ErrCode) : (s.raise e).opnd = s.opnd := rfl
@[simp] theorem State.raise_resultCount (s : State) (e : ErrCode) : (s.raise e).resultCount = 0 := rfl
@[simp] theorem State.raise_lastCmd (s : State) (e : ErrCode) : (s.raise e).lastCmd = s.lastCmd := rfl
@[simp] theorem State.raise_ram (s : State) (e : ErrCode) : (s.raise e).ram = s.ram := rfl
@[simp] theorem State.raise_ramEpoch (s : State) (e : ErrCode) : (s.raise e).ramEpoch = s.ramEpoch := rfl
@[simp] theorem State.raise_bufBytes (s : State) (e : ErrCode) : (s.raise e).bufBytes = s.bufBytes := rfl
@[simp] theorem State.raise_env (s : State) (e : ErrCode) : (s.raise e).env = s.env := rfl

/-! ### State.assertReset -/

@[simp] theorem State.assertReset_status (s : State) : (s.assertReset).status = Status.reset := rfl
@[simp] theorem State.assertReset_pixw (s : State) : (s.assertReset).pixw = false := rfl
@[simp] theorem State.assertReset_opnd (s : State) : (s.assertReset).opnd = OperandRegs.reset := rfl
@[simp] theorem State.assertReset_resultCount (s : State) : (s.assertReset).resultCount = 0 := rfl
@[simp] theorem State.assertReset_lastCmd (s : State) : (s.assertReset).lastCmd = 0 := rfl
@[simp] theorem State.assertReset_ram (s : State) : (s.assertReset).ram = [] := rfl
@[simp] theorem State.assertReset_ramEpoch (s : State) : (s.assertReset).ramEpoch = s.ramEpoch + 1 := rfl
@[simp] theorem State.assertReset_bufBytes (s : State) : (s.assertReset).bufBytes = s.bufBytes := rfl
@[simp] theorem State.assertReset_env (s : State) : (s.assertReset).env = s.env := rfl

/-! ### State.reply -/

@[simp] theorem State.reply_status (s : State) (v : Word) : (s.reply v).status = s.status := rfl
@[simp] theorem State.reply_pixw (s : State) (v : Word) : (s.reply v).pixw = s.pixw := rfl
@[simp] theorem State.reply_opnd (s : State) (v : Word) : (s.reply v).opnd = s.opnd := rfl
@[simp] theorem State.reply_resultCount (s : State) (v : Word) : (s.reply v).resultCount = s.resultCount := rfl
@[simp] theorem State.reply_lastCmd (s : State) (v : Word) : (s.reply v).lastCmd = s.lastCmd := rfl
@[simp] theorem State.reply_ram (s : State) (v : Word) : (s.reply v).ram = s.ram := rfl
@[simp] theorem State.reply_ramEpoch (s : State) (v : Word) : (s.reply v).ramEpoch = s.ramEpoch := rfl
@[simp] theorem State.reply_bufBytes (s : State) (v : Word) : (s.reply v).bufBytes = s.bufBytes := rfl
@[simp] theorem State.reply_env (s : State) (v : Word) : (s.reply v).env = { s.env with replies := v :: s.env.replies } := rfl

/-! ### State.withScript -/

@[simp] theorem State.withScript_status (s : State) (rest : List HostOp) : (s.withScript rest).status = s.status := rfl
@[simp] theorem State.withScript_pixw (s : State) (rest : List HostOp) : (s.withScript rest).pixw = s.pixw := rfl
@[simp] theorem State.withScript_opnd (s : State) (rest : List HostOp) : (s.withScript rest).opnd = s.opnd := rfl
@[simp] theorem State.withScript_resultCount (s : State) (rest : List HostOp) : (s.withScript rest).resultCount = s.resultCount := rfl
@[simp] theorem State.withScript_lastCmd (s : State) (rest : List HostOp) : (s.withScript rest).lastCmd = s.lastCmd := rfl
@[simp] theorem State.withScript_ram (s : State) (rest : List HostOp) : (s.withScript rest).ram = s.ram := rfl
@[simp] theorem State.withScript_ramEpoch (s : State) (rest : List HostOp) : (s.withScript rest).ramEpoch = s.ramEpoch := rfl
@[simp] theorem State.withScript_bufBytes (s : State) (rest : List HostOp) : (s.withScript rest).bufBytes = s.bufBytes := rfl
@[simp] theorem State.withScript_env (s : State) (rest : List HostOp) : (s.withScript rest).env = { s.env with script := rest } := rfl

/-! ### State.takeTurn, which splits on BUSY -/

@[simp] theorem State.takeTurn_status (s : State) : s.takeTurn.status = s.status := by
  unfold State.takeTurn; split <;> rfl

@[simp] theorem State.takeTurn_pixw (s : State) : s.takeTurn.pixw = s.pixw := by
  unfold State.takeTurn; split <;> rfl

@[simp] theorem State.takeTurn_opnd (s : State) : s.takeTurn.opnd = s.opnd := by
  unfold State.takeTurn; split <;> rfl

@[simp] theorem State.takeTurn_resultCount (s : State) : s.takeTurn.resultCount = s.resultCount := by
  unfold State.takeTurn; split <;> rfl

@[simp] theorem State.takeTurn_lastCmd (s : State) : s.takeTurn.lastCmd = s.lastCmd := by
  unfold State.takeTurn; split <;> rfl

@[simp] theorem State.takeTurn_ram (s : State) : s.takeTurn.ram = s.ram := by
  unfold State.takeTurn; split <;> rfl

@[simp] theorem State.takeTurn_ramEpoch (s : State) : s.takeTurn.ramEpoch = s.ramEpoch := by
  unfold State.takeTurn; split <;> rfl

@[simp] theorem State.takeTurn_bufBytes (s : State) : s.takeTurn.bufBytes = s.bufBytes := by
  unfold State.takeTurn; split <;> rfl

/-- Only the turns can change, and nothing changes while no command is pending. -/
theorem State.takeTurn_env (s : State) :
    s.takeTurn.env = if s.status.busy then { s.env with turns := s.env.turns.tail } else s.env := by
  unfold State.takeTurn; split <;> rfl

@[simp] theorem State.takeTurn_script (s : State) : s.takeTurn.env.script = s.env.script := by
  rw [State.takeTurn_env]; split <;> rfl

@[simp] theorem State.takeTurn_replies (s : State) : s.takeTurn.env.replies = s.env.replies := by
  rw [State.takeTurn_env]; split <;> rfl

/-! ### The RAM alone -/

/-- A byte depends on the RAM and the draw alone. -/
theorem State.byteAt_congr {s t : State} (hram : t.ram = s.ram) (hepoch : t.ramEpoch = s.ramEpoch) (a : Nat) :
    t.byteAt a = s.byteAt a := by
  simp [State.byteAt, hram, hepoch]

@[simp] theorem State.issue_byteAt (s : State) (w : Word) (a : Nat) : (s.issue w).byteAt a = s.byteAt a := rfl
@[simp] theorem State.complete_byteAt (s : State) (n : Nat) (t : Bool) (a : Nat) :
    (s.complete n t).byteAt a = s.byteAt a := rfl
@[simp] theorem State.raise_byteAt (s : State) (e : ErrCode) (a : Nat) : (s.raise e).byteAt a = s.byteAt a := rfl
@[simp] theorem State.reply_byteAt (s : State) (v : Word) (a : Nat) : (s.reply v).byteAt a = s.byteAt a := rfl
@[simp] theorem State.withScript_byteAt (s : State) (rest : List HostOp) (a : Nat) :
    (s.withScript rest).byteAt a = s.byteAt a := rfl
@[simp] theorem State.takeTurn_byteAt (s : State) (a : Nat) : s.takeTurn.byteAt a = s.byteAt a :=
  State.byteAt_congr (by simp) (by simp) a

/-- A reset draws every byte anew. -/
theorem State.assertReset_byteAt (s : State) (a : Nat) :
    s.assertReset.byteAt a = Config.ramDraw (s.ramEpoch + 1) a := rfl

end Sys2Proof.Machine
end

