-- ==== Sys2Proof/Laws/Ops.lean ====
section
/-! SUPPORT. What the operations over registers and RAM do: reads as bytes, the bit primitives, the two completions and
the end every command rule shares. -/

namespace Sys2Proof.Machine

/-! ### Reads -/

/-- A state's byte after its RAM alone was replaced by a row of elements. -/
theorem State.byteAt_writeElems (s : State) (base size : Nat) (lane : Nat → Word) (n i j : Nat) (hi : i < n)
    (hj : j < size) :
    State.byteAt { s with ram := s.ram.writeElems base size lane n } (base + i * size + j) =
      (lane i >>> (8 * j)).setWidth 8 := by
  simp [State.byteAt, Memory.find?_writeElems _ _ _ _ _ _ _ hi hj]

theorem State.byteAt_writeElems_outside (s : State) (base size : Nat) (lane : Nat → Word) (n a : Nat)
    (ha : ¬(base ≤ a ∧ a < base + n * size)) :
    State.byteAt { s with ram := s.ram.writeElems base size lane n } a = s.byteAt a := by
  simp [State.byteAt, Memory.find?_writeElems_outside _ _ _ _ _ _ ha]

theorem State.byteAt_writeLE (s : State) (a n x : Nat) (v : Word) :
    State.byteAt { s with ram := s.ram.writeLE a n v } x =
      if a ≤ x ∧ x < a + n then (v >>> (8 * (x - a))).setWidth 8 else s.byteAt x := by
  simp only [State.byteAt, Memory.find?_writeLE]
  split <;> rfl

theorem State.memRead_one (s : State) (a : Nat) : s.memRead a 1 = (s.byteAt a).setWidth 32 := by
  simp [State.memRead]

theorem State.memRead_two (s : State) (a : Nat) :
    s.memRead a 2 = (s.byteAt a).setWidth 32 ||| ((s.byteAt (a + 1)).setWidth 32 <<< 8) := by
  simp [State.memRead]

/-- Bit i of a read of up to four bytes is bit i mod 8 of byte i div 8. -/
theorem State.getLsbD_memRead (s : State) (a n i : Nat) :
    (s.memRead a n).getLsbD i = (decide (i < 8 * n ∧ i < 32) && (s.byteAt (a + i / 8)).getLsbD (i % 8)) := by
  induction n generalizing a i with
  | zero => simp [State.memRead]
  | succ k ih =>
    simp only [State.memRead, BitVec.getLsbD_or, BitVec.getLsbD_setWidth, BitVec.getLsbD_shiftLeft, ih]
    by_cases hi : i < 8
    · have h0 : i / 8 = 0 := by omega
      have h1 : i % 8 = i := by omega
      have hlt : i < 32 := by omega
      have hk : i < 8 * (k + 1) := by omega
      simp [hi, h0, h1, hlt, hk]
    · have hz : (s.byteAt a).getLsbD i = false := BitVec.getLsbD_of_ge _ _ (by omega)
      have h0 : a + 1 + (i - 8) / 8 = a + i / 8 := by omega
      have h1 : (i - 8) % 8 = i % 8 := by omega
      rw [hz, h0, h1]
      by_cases hin : i < 8 * (k + 1) ∧ i < 32
      · simp [hi, hin]; omega
      · simp only [hin, decide_false, Bool.false_and, Bool.and_false, Bool.false_or]
        by_cases h32 : i < 32
        · have : ¬(i - 8 < 8 * k) := by omega
          simp [this]
        · simp [h32]

/-- A read depends on the bytes it reads alone. -/
theorem State.memRead_congr {s t : State} {a n : Nat} (h : ∀ k, k < n → t.byteAt (a + k) = s.byteAt (a + k)) :
    t.memRead a n = s.memRead a n := by
  induction n generalizing a with
  | zero => rfl
  | succ k ih =>
    have h0 := h 0 (by omega)
    simp only [Nat.add_zero] at h0
    simp only [State.memRead, h0]
    rw [ih]
    intro j hj
    have := h (j + 1) (by omega)
    rwa [show a + 1 + j = a + (j + 1) by omega]

/-- The operand registers are no part of what a read of RAM gives. -/
@[simp] theorem State.memRead_aimed (s : State) (x y z : Word) (a n : Nat) :
    (s.aimed x y z).memRead a n = s.memRead a n := State.memRead_congr (fun _ _ => rfl)

@[simp] theorem State.memRead_withVal (s : State) (v : Word) (a n : Nat) :
    (s.withVal v).memRead a n = s.memRead a n := State.memRead_congr (fun _ _ => rfl)

/-- A read of bytes that are a value's own gives the value's low bits. -/
theorem State.getLsbD_memRead_of_bytes {t : State} {a n : Nat} {v : Word}
    (h : ∀ j, j < n → t.byteAt (a + j) = (v >>> (8 * j)).setWidth 8) (i : Nat) :
    (t.memRead a n).getLsbD i = (decide (i < 8 * n) && v.getLsbD i) := by
  rw [State.getLsbD_memRead]
  by_cases hi : i < 8 * n
  · rw [h (i / 8) (by omega)]
    by_cases h32 : i < 32
    · simp only [hi, h32, and_self, decide_true, Bool.true_and, BitVec.getLsbD_setWidth,
        BitVec.getLsbD_ushiftRight]
      rw [show 8 * (i / 8) + i % 8 = i by omega]
      simp [show i % 8 < 8 by omega]
    · rw [BitVec.getLsbD_of_ge v i (by omega)]
      simp [h32]
  · simp [hi]

/-- A read of bytes that are a value's own gives the value, where the value fits. -/
theorem State.memRead_of_bytes {t : State} {a n : Nat} {v : Word}
    (h : ∀ j, j < n → t.byteAt (a + j) = (v >>> (8 * j)).setWidth 8) (hv : v.toNat < 2 ^ (8 * n)) :
    t.memRead a n = v := by
  apply BitVec.eq_of_getLsbD_eq
  intro i _
  rw [State.getLsbD_memRead_of_bytes h]
  by_cases hi : i < 8 * n
  · simp [hi]
  · have : v.getLsbD i = false := by
      rw [BitVec.getLsbD, Nat.testBit_lt_two_pow]
      exact lt_of_lt_of_le hv (Nat.pow_le_pow_right (by decide) (by omega))
    simp [hi, this]

/-! ### Bits -/

theorem getLsbD_bit (v : Word) (p i : Nat) : (bit v p).getLsbD i = (decide (i = 0) && v.getLsbD p) := by
  unfold bit
  by_cases hi : i = 0
  · subst hi; simp
  · simp [hi, BitVec.getLsbD_one]

/-- setBit changes bit p alone. -/
theorem getLsbD_setBit (e : Word) (p : Nat) (b : Bool) (i : Nat) (hp : p < 32) :
    (setBit e p (if b then 1 else 0)).getLsbD i = if i = p then b else e.getLsbD i := by
  unfold setBit
  by_cases hip : i = p
  · subst hip
    cases b <;> simp [hp]
  · rw [if_neg hip]
    by_cases hi : i < 32
    · by_cases h : i < p
      · cases b <;> simp [hi, h]
      · have hz : ¬i - p = 0 := by omega
        cases b <;> simp [hi, h, hz]
    · rw [BitVec.getLsbD_of_ge _ _ (by omega), BitVec.getLsbD_of_ge _ _ (by omega)]

theorem truth_eq (v : Word) : truth v = if decide (v ≠ 0) then 1 else 0 := by
  unfold truth
  by_cases h : v = 0 <;> simp [h]

/-! ### The end of a command -/

/-- An error completion is what the claims call Failed. -/
theorem State.raise_failed (s : State) (e : ErrCode) : Failed s (s.raise e) e := rfl

/-- Everything deliver can do: with a region out of range it raises OUT_OF_RANGE; else it succeeds, byte j of output
element i being byte j of `lane i`. -/
theorem State.deliver_spec (s : State) (regions : List (Nat × Nat)) (size lanes : Nat) (lane : Nat → Word) (n : Nat)
    (t : Bool) :
    if s.allInRange regions = true then
      Completed s (s.deliver regions size lanes lane n t) s.dst (lanes * size) n t ∧
        ∀ i j, i < lanes → j < size →
          (s.deliver regions size lanes lane n t).byteAt (s.dst + i * size + j) = (lane i >>> (8 * j)).setWidth 8
    else Failed s (s.deliver regions size lanes lane n t) .outOfRange := by
  unfold State.deliver
  split
  · refine ⟨⟨rfl, by simp, ?_, rfl, rfl, rfl, rfl, rfl, rfl⟩, ?_⟩
    · intro a ha
      rw [State.complete_byteAt]
      exact State.byteAt_writeElems_outside _ _ _ _ _ _ ha
    · intro i j hi hj
      rw [State.complete_byteAt]
      exact State.byteAt_writeElems s s.dst size lane lanes i j hi hj
  · exact State.raise_failed _ _

/-- The region check is the one the claims use. -/
theorem State.inRange_iff (s : State) (a len : Nat) : s.inRange a len = true ↔ InRange s a len := by
  simp [State.inRange, InRange]

/-- All regions are in range when each is. -/
theorem State.allInRange_cons (s : State) (r : Nat × Nat) (rest : List (Nat × Nat)) :
    s.allInRange (r :: rest) = true ↔ InRange s r.1 r.2 ∧ s.allInRange rest = true := by
  simp [State.allInRange, ← State.inRange_iff]

theorem State.allInRange_nil (s : State) : s.allInRange [] = true := rfl

/-- deliver keeps the RAM's canonical form. -/
theorem State.deliver_wf {s : State} (regions : List (Nat × Nat)) (size lanes : Nat) (lane : Nat → Word) (n : Nat)
    (t : Bool) (h : s.ram.wf = true) : (s.deliver regions size lanes lane n t).ram.wf = true := by
  unfold State.deliver
  split
  · exact Memory.wf_writeElems _ _ _ _ h
  · exact h

/-- deliver lists only bytes the RAM has, where the destination is one of the regions checked. -/
theorem State.deliver_below {s : State} {regions : List (Nat × Nat)} {size lanes : Nat} (lane : Nat → Word) (n : Nat)
    (t : Bool) (hdst : (s.dst, lanes * size) ∈ regions) (h : s.ram.below s.bufBytes = true) :
    (s.deliver regions size lanes lane n t).ram.below s.bufBytes = true := by
  unfold State.deliver
  split
  · next hall =>
    have hr := List.all_eq_true.mp hall _ hdst
    simp only [State.inRange, decide_eq_true_eq] at hr
    rcases hr with h0 | hle
    · have key : (s.ram.writeElems s.dst size lane lanes) = s.ram ∨ s.dst + lanes * size ≤ s.bufBytes := by
        rcases Nat.mul_eq_zero.mp h0 with hl | hs
        · left; subst hl; rfl
        · left
          subst hs
          have : ∀ k, s.ram.writeElems s.dst 0 lane k = s.ram := by
            intro k
            induction k with
            | zero => rfl
            | succ j ih => simp [Memory.writeElems, Memory.writeLE, ih]
          exact this lanes
      rcases key with heq | hle
      · simpa [heq] using h
      · exact Memory.below_writeElems _ hle h
    · exact Memory.below_writeElems _ hle h
  · exact h

/-! ### The checks before the regions -/

/-- withPlane raises INVALID_PLANE or goes on. -/
theorem State.withPlane_eq (s : State) (plane : Nat) (rest : State) :
    s.withPlane plane rest = if plane < s.pixW then rest else s.raise .invalidPlane := by
  simp [State.withPlane, State.planeOk]

/-- withFrame raises INVALID_PLANE, then SHAPE, or goes on. -/
theorem State.withFrame_eq (s : State) (plane : Nat) (rest : State) :
    s.withFrame plane rest =
      if plane < s.pixW then
        if s.channels ≠ 0 ∧ s.count % s.channels = 0 then rest else s.raise .shape
      else s.raise .invalidPlane := by
  simp [State.withFrame, State.withPlane_eq, State.shapeOk]

theorem State.pixB_pos (s : State) : 0 < s.pixB := by
  unfold State.pixB; split <;> decide

theorem State.pixW_le (s : State) : s.pixW ≤ 16 := by
  unfold State.pixW; split <;> decide

theorem State.pixW_eq (s : State) : s.pixW = 8 * s.pixB := by
  unfold State.pixW State.pixB; split <;> rfl

/-! ### The two ends of deliver, and two or three regions -/

theorem State.deliver_completed {s : State} {regions : List (Nat × Nat)} {size lanes : Nat} {lane : Nat → Word} {n : Nat}
    {t : Bool} (h : s.allInRange regions = true) :
    Completed s (s.deliver regions size lanes lane n t) s.dst (lanes * size) n t ∧
      ∀ i j, i < lanes → j < size →
        (s.deliver regions size lanes lane n t).byteAt (s.dst + i * size + j) = (lane i >>> (8 * j)).setWidth 8 := by
  have := State.deliver_spec s regions size lanes lane n t
  rwa [if_pos h] at this

theorem State.deliver_failed {s : State} {regions : List (Nat × Nat)} {size lanes : Nat} {lane : Nat → Word} {n : Nat}
    {t : Bool} (h : ¬s.allInRange regions = true) :
    Failed s (s.deliver regions size lanes lane n t) .outOfRange := by
  have := State.deliver_spec s regions size lanes lane n t
  rwa [if_neg h] at this

theorem State.allInRange_two {s : State} {a b c d : Nat} :
    s.allInRange [(a, b), (c, d)] = true ↔ InRange s a b ∧ InRange s c d := by
  simp [State.allInRange_cons, State.allInRange_nil]

theorem State.allInRange_three {s : State} {a b c d e f : Nat} :
    s.allInRange [(a, b), (c, d), (e, f)] = true ↔ InRange s a b ∧ InRange s c d ∧ InRange s e f := by
  simp [State.allInRange_cons, State.allInRange_nil]

/-- The region check sees BUF_BYTES alone. -/
theorem InRange.of_bufBytes {s t : State} {a len : Nat} (h : t.bufBytes = s.bufBytes) (hr : InRange s a len) :
    InRange t a len := by
  unfold InRange at *
  rwa [h]

/-- After deliver every operand register, CFG and BUF_BYTES are as before, in range or not. -/
theorem State.deliver_keeps (s : State) (regions : List (Nat × Nat)) (size lanes : Nat) (lane : Nat → Word) (n : Nat)
    (t : Bool) :
    (s.deliver regions size lanes lane n t).opnd = s.opnd ∧ (s.deliver regions size lanes lane n t).pixw = s.pixw ∧
      (s.deliver regions size lanes lane n t).bufBytes = s.bufBytes ∧
      (s.deliver regions size lanes lane n t).lastCmd = s.lastCmd ∧
      (s.deliver regions size lanes lane n t).ramEpoch = s.ramEpoch ∧
      (s.deliver regions size lanes lane n t).env = s.env := by
  unfold State.deliver
  split <;> exact ⟨rfl, rfl, rfl, rfl, rfl, rfl⟩

end Sys2Proof.Machine
end

