-- ==== Sys2Proof/Laws/Host.lean ====
section
/-! SUPPORT. Everything a host move can do, and what it leaves alone. -/

namespace Sys2Proof.Machine

/-- The one inversion of hostStep: each way it answers a next state, with the conditions it needs. -/
theorem hostStep_cases {op : HostOp} {s t : State} (h : hostStep op s = .next t) :
    (∃ o, op = .readCsr o 4 ∧ csrAccessOk o 4 = true ∧ t = s.reply (s.csrRead o)) ∨
    (∃ o v, op = .writeCsr o 4 v ∧ csrAccessOk o 4 = true ∧ s.status.busy = false ∧ t = s.csrWrite o v) ∨
    (∃ o n, op = .readRam o n ∧ s.ramAccessOk o n = true ∧ s.status.busy = false ∧ t = s.reply (s.memRead o n)) ∨
    (∃ o n v, op = .writeRam o n v ∧ s.ramAccessOk o n = true ∧ s.status.busy = false ∧
      t = { s with ram := s.ram.writeLE o n v }) ∨
    (op = .wait ∧ s.status.busy = true ∧
      t = State.reply (s.withScript (.wait :: s.env.script)) s.status.toWord) ∨
    (op = .wait ∧ s.status.busy = false ∧ t = s.reply s.status.toWord) ∨
    (op = .reset ∧ t = s.assertReset) := by
  cases op with
  | readCsr o w =>
    simp only [hostStep] at h
    split at h
    · next hok =>
      have hw : w = 4 := by simp [csrAccessOk] at hok; exact hok.1
      subst hw
      exact .inl ⟨o, rfl, hok, by simpa using h.symm⟩
    · cases h
  | writeCsr o w v =>
    simp only [hostStep] at h
    split at h
    · next hok =>
      have hw : w = 4 := by simp [csrAccessOk] at hok; exact hok.1
      subst hw
      split at h
      · cases h
      · next hb => exact .inr (.inl ⟨o, v, rfl, hok, by simpa using hb, by simpa using h.symm⟩)
    · cases h
  | readRam o n =>
    simp only [hostStep] at h
    split at h
    · next hok =>
      split at h
      · cases h
      · next hb => exact .inr (.inr (.inl ⟨o, n, rfl, hok, by simpa using hb, by simpa using h.symm⟩))
    · cases h
  | writeRam o n v =>
    simp only [hostStep] at h
    split at h
    · next hok =>
      split at h
      · cases h
      · next hb => exact .inr (.inr (.inr (.inl ⟨o, n, v, rfl, hok, by simpa using hb, by simpa using h.symm⟩)))
    · cases h
  | wait =>
    simp only [hostStep] at h
    split at h
    · next hb => exact .inr (.inr (.inr (.inr (.inl ⟨rfl, hb, by simpa [State.withScript] using h.symm⟩))))
    · next hb =>
      exact .inr (.inr (.inr (.inr (.inr (.inl ⟨rfl, by simpa using hb, by simpa using h.symm⟩)))))
  | reset =>
    exact .inr (.inr (.inr (.inr (.inr (.inr ⟨rfl, by simpa [hostStep] using h.symm⟩)))))

/-- The offset of a register is the one the map gives it. -/
theorem csrAt?_offset (c : Csr) : csrAt? c.offset = some c := by cases c <;> rfl

/-- A register is found at its own offset alone. -/
theorem offset_of_csrAt? {o : Nat} {c : Csr} (h : csrAt? o = some c) : o = c.offset := by
  have : c.offset = o := by simpa using List.find?_some h
  exact this.symm

/-- A CSR write changes registers alone: no RAM byte, no parameter, nothing of the environment, and RESULT_COUNT
keeps its value. -/
theorem State.csrWrite_frame (s : State) (o : Nat) (v : Word) :
    (s.csrWrite o v).ram = s.ram ∧ (s.csrWrite o v).ramEpoch = s.ramEpoch ∧ (s.csrWrite o v).bufBytes = s.bufBytes ∧
    (s.csrWrite o v).env = s.env ∧ (s.csrWrite o v).resultCount = s.resultCount := by
  unfold State.csrWrite
  split <;> exact ⟨rfl, rfl, rfl, rfl, rfl⟩

/-- STATUS after a CSR write: BUSY alone after an issue, else as before. -/
theorem State.csrWrite_status (s : State) (o : Nat) (v : Word) :
    (s.csrWrite o v).status =
      if csrAt? o = some .cmd then { busy := true, done := false, err := false, trunc := false, errCode := .none }
      else s.status := by
  unfold State.csrWrite
  split <;> simp_all

end Sys2Proof.Machine
end

