-- ==== Sys2Proof/Laws/PerInstr.lean ====
section
/-! SUPPORT. Statements about every command as syntax, one lemma per constructor. Family OpcodeInPlace: bits 7:0 of a
command's word hold the opcode its row of the table gives (30_encoding.md R70, R74). -/

namespace Sys2Proof.Laws.OpcodeInPlace

/-- Bits 7:0 of the word of a well-formed command hold its opcode. -/
def Statement (i : Instr) : Prop := i.wellFormed = true → opField (encode i) = i.opcode

/-- The one argument, for every command. -/
theorem holds (i : Instr) : Statement i := by
  intro h
  have h1 := Instr.opcode_lt i
  rw [opField, field_eq, toNat_encode h]
  omega

theorem i8tou8 : Statement .i8tou8 := holds _
theorem u8toi8 : Statement .u8toi8 := holds _
theorem i16toi8 : Statement .i16toi8 := holds _
theorem i8toi16 : Statement .i8toi16 := holds _
theorem cvt (stype dtype : Nat) : Statement (.cvt stype dtype) := holds _
theorem getbp (plane : Nat) : Statement (.getbp plane) := holds _
theorem setbp (plane : Nat) : Statement (.setbp plane) := holds _
theorem setbpp (plane : Nat) : Statement (.setbpp plane) := holds _
theorem fenc (plane : Nat) : Statement (.fenc plane) := holds _
theorem fdec (plane : Nat) : Statement (.fdec plane) := holds _

end Sys2Proof.Laws.OpcodeInPlace
end

