-- ==== Sys2Proof/Laws/Planes.lean ====
section
/-! SUPPORT. Element bits of the bit-plane and frame families: what the plane check, the plane write, the message bit and
the byte packing are, bit by bit. -/

namespace Sys2Proof.Machine

theorem State.withPlane_failed {s : State} {plane : Nat} {rest : State} (h : s.pixW ≤ plane) :
    Failed s (s.withPlane plane rest) .invalidPlane := by
  rw [State.withPlane_eq, if_neg (by omega)]
  exact State.raise_failed _ _

/-- A bit is 1 or 0. -/
theorem bit_eq_ite (v : Word) (p : Nat) : bit v p = if v.getLsbD p then 1 else 0 := by
  apply BitVec.eq_of_getLsbD_eq
  intro i hi
  rw [getLsbD_bit]
  cases v.getLsbD p <;> by_cases h : i = 0 <;> simp [h, BitVec.getLsbD_one]

/-- The bits of output element i, from what deliver says of its bytes. -/
theorem State.getLsbD_memRead_of_lanes {t : State} {lanes base size : Nat} {lane : Nat → Word}
    (h : ∀ i j, i < lanes → j < size → t.byteAt (base + i * size + j) = (lane i >>> (8 * j)).setWidth 8) (i : Nat)
    (hi : i < lanes) (b : Nat) :
    (t.memRead (base + i * size) size).getLsbD b = (decide (b < 8 * size) && (lane i).getLsbD b) :=
  State.getLsbD_memRead_of_bytes (fun j hj => h i j hi hj) b

/-- SETBP's element: bit p is whether the plane value is nonzero, every other bit the source's. -/
theorem State.getLsbD_planeWritten (s : State) (p i b : Nat) (hp : p < s.pixW) :
    (s.planeWritten p i).getLsbD b =
      if b = p then decide (s.memRead (s.val + i * s.pixB) s.pixB ≠ 0)
      else (s.memRead (s.src + i * s.pixB) s.pixB).getLsbD b := by
  unfold State.planeWritten
  rw [truth_eq, getLsbD_setBit _ _ _ _ (by have := s.pixW_le; omega)]
  rfl

/-- Message bit k, the most significant bit of each byte first. -/
theorem State.messageBit_eq (s : State) (k : Nat) :
    s.messageBit k = if (s.byteAt (s.val + k / 8)).getLsbD (7 - k % 8) then 1 else 0 := by
  unfold State.messageBit
  rw [bit_eq_ite]
  have : (s.memRead (s.val + k / 8) 1).getLsbD (7 - k % 8) = (s.byteAt (s.val + k / 8)).getLsbD (7 - k % 8) := by
    rw [State.getLsbD_memRead, show (7 - k % 8) / 8 = 0 by omega, show (7 - k % 8) % 8 = 7 - k % 8 by omega,
      decide_eq_true (by omega)]
    rfl
  rw [this]

/-- Packing n bits puts bit k at position 7 - k. -/
theorem getLsbD_packBits (f : Nat → Bool) (n : Nat) (hn : n ≤ 8) (b : Nat) :
    (packBits (fun k => if f k then 1 else 0) n).getLsbD b = decide (b ≤ 7 ∧ 7 - b < n ∧ f (7 - b) = true) := by
  induction n with
  | zero => simp [packBits]
  | succ k ih =>
    rw [packBits, BitVec.getLsbD_or, ih (by omega), BitVec.getLsbD_shiftLeft]
    by_cases hb : b = 7 - k
    · subst hb
      have h7 : 7 - (7 - k) = k := by omega
      have h32 : 7 - k < 32 := by omega
      rw [h7]
      cases f k <;> simp [h32]
    · have hone : ∀ x : Bool, ((if x then 1 else 0 : Word)).getLsbD (b - (7 - k)) = (decide (b - (7 - k) = 0) && x) := by
        intro x
        cases x <;> simp [BitVec.getLsbD_one]
      rw [hone]
      by_cases h : b < 7 - k
      · have e1 : ¬(b ≤ 7 ∧ 7 - b < k + 1 ∧ f (7 - b) = true) ↔ ¬(b ≤ 7 ∧ 7 - b < k ∧ f (7 - b) = true) := by
          constructor <;> intro q r <;> apply q <;> exact ⟨r.1, by omega, r.2.2⟩
        simp only [decide_eq_decide.mpr (not_iff_not.mp e1)]
        simp [h]
      · have h0 : ¬b - (7 - k) = 0 := by omega
        simp [h0]
        by_cases h7 : b ≤ 7
        · have e1 : 7 - b < k := by omega
          have e3 : 7 ≤ k + b := by omega
          simp [e1, e3]
        · simp [h7]

/-- CFG alone gives the element width. -/
theorem State.pix_of_pixw {s t : State} (h : t.pixw = s.pixw) : t.pixW = s.pixW ∧ t.pixB = s.pixB := by
  unfold State.pixW State.pixB
  rw [h]
  exact ⟨rfl, rfl⟩

end Sys2Proof.Machine
end

