-- ==== Sys2Proof/Laws/SampleWidth.lean ====
section
/-! SUPPORT. What each shared operation of the sample-width family does, byte by byte. -/

namespace Sys2Proof.Machine

/-! ### Samples -/

theorem State.byteSample_eq (s : State) (base i : Nat) : s.byteSample base i = s.byteAt (base + i) := by
  unfold State.byteSample State.elem lowByte
  rw [Nat.mul_one, State.memRead_one]
  apply BitVec.eq_of_getLsbD_eq
  intro j hj
  have : j < 32 := by omega
  simp [hj, this]

theorem highByte_memRead (s : State) (a : Nat) : highByte (s.memRead a 2) = s.byteAt (a + 1) := by
  unfold highByte
  apply BitVec.eq_of_getLsbD_eq
  intro j hj
  rw [BitVec.getLsbD_extractLsb', State.getLsbD_memRead, show (8 + j) / 8 = 1 by omega, show (8 + j) % 8 = j by omega]
  simp [hj]
  intro
  omega

theorem lowByte_memRead (s : State) (a : Nat) : lowByte (s.memRead a 2) = s.byteAt a := by
  unfold lowByte
  apply BitVec.eq_of_getLsbD_eq
  intro j hj
  rw [BitVec.getLsbD_extractLsb', State.getLsbD_memRead, show (0 + j) / 8 = 0 by omega, show (0 + j) % 8 = j by omega]
  simp [hj]
  intro
  omega

theorem flip_flip (b : Byte) : flip (flip b) = b := by
  simp [flip]

/-- The low eight bits of a join are the low byte's, the next eight the high byte's. -/
theorem getLsbD_join (hi lo : Byte) (i : Nat) :
    (join hi lo).getLsbD i = if i < 8 then lo.getLsbD i else hi.getLsbD (i - 8) := by
  unfold join
  by_cases h : i < 8
  · have : i < 16 := by omega
    simp [h, this]
  · by_cases h16 : i < 16
    · have h8 : i - 8 < 8 := by omega
      have : i - 8 < 16 := by omega
      rw [BitVec.getLsbD_or, BitVec.getLsbD_shiftLeft, BitVec.getLsbD_setWidth, BitVec.getLsbD_signExtend,
        BitVec.getLsbD_of_ge lo i (by omega)]
      simp [h, h16, h8, this]
    · rw [BitVec.getLsbD_of_ge _ _ (by omega), if_neg h, BitVec.getLsbD_of_ge _ _ (by omega)]

/-! ### mapBytes -/

theorem State.mapBytes_completed {s : State} (g : Byte → Byte) (h : InRange s s.src s.count ∧ InRange s s.dst s.count) :
    Completed s (s.mapBytes g) s.dst s.count s.count false ∧
      ∀ i, i < s.count → (s.mapBytes g).byteAt (s.dst + i) = g (s.byteAt (s.src + i)) := by
  have D := State.deliver_completed (size := 1) (lanes := s.count)
    (lane := fun i => (g (s.byteSample s.src i)).setWidth 32) (n := s.count) (t := false) (State.allInRange_two.mpr h)
  refine ⟨?_, ?_⟩
  · have h1 := D.1
    rw [Nat.mul_one] at h1
    exact h1
  · intro i hi
    have h1 := D.2 i 0 hi (by omega)
    rw [State.byteSample_eq] at h1
    simp at h1
    exact h1

theorem State.mapBytes_failed {s : State} (g : Byte → Byte) (h : ¬(InRange s s.src s.count ∧ InRange s s.dst s.count)) :
    Failed s (s.mapBytes g) .outOfRange :=
  State.deliver_failed (by rwa [State.allInRange_two])

/-! ### splitHalfwords -/

theorem State.splitHalfwords_completed {s : State} (g : Byte → Byte)
    (h : InRange s s.src (2 * s.count) ∧ InRange s s.dst (2 * s.count)) :
    Completed s (s.splitHalfwords g) s.dst (2 * s.count) (2 * s.count) false ∧
      ∀ j, j < s.count →
        (s.splitHalfwords g).byteAt (s.dst + 2 * j) = g (s.byteAt (s.src + (2 * j + 1))) ∧
          (s.splitHalfwords g).byteAt (s.dst + (2 * j + 1)) = g (s.byteAt (s.src + 2 * j)) := by
  have D := State.deliver_completed (size := 1) (lanes := 2 * s.count)
    (lane := fun k =>
      (g (if k % 2 = 0 then highByte (s.elem s.src (k / 2) 2) else lowByte (s.elem s.src (k / 2) 2))).setWidth 32)
    (n := 2 * s.count) (t := false) (State.allInRange_two.mpr h)
  refine ⟨?_, ?_⟩
  · have h1 := D.1
    rw [Nat.mul_one] at h1
    exact h1
  · intro j hj
    have h1 := D.2 (2 * j) 0 (by omega) (by omega)
    have h2 := D.2 (2 * j + 1) 0 (by omega) (by omega)
    rw [State.elem, highByte_memRead, lowByte_memRead, show 2 * j / 2 = j by omega, show 2 * j % 2 = 0 by omega] at h1
    rw [State.elem, highByte_memRead, lowByte_memRead, show (2 * j + 1) / 2 = j by omega,
      show (2 * j + 1) % 2 = 1 by omega] at h2
    simp at h1 h2
    rw [Nat.mul_comm j 2] at h1 h2
    exact ⟨h1, h2⟩

theorem State.splitHalfwords_failed {s : State} (g : Byte → Byte)
    (h : ¬(InRange s s.src (2 * s.count) ∧ InRange s s.dst (2 * s.count))) :
    Failed s (s.splitHalfwords g) .outOfRange :=
  State.deliver_failed (by rwa [State.allInRange_two])

/-! ### joinBytes -/

theorem State.joinBytes_completed {s : State} (g : Byte → Byte)
    (h : InRange s s.src s.count ∧ InRange s s.dst (2 * (s.count / 2))) :
    Completed s (s.joinBytes g) s.dst (2 * (s.count / 2)) (s.count / 2) (decide (s.count % 2 = 1)) ∧
      ∀ j, j < s.count / 2 →
        (s.joinBytes g).byteAt (s.dst + 2 * j) = g (s.byteAt (s.src + (2 * j + 1))) ∧
          (s.joinBytes g).byteAt (s.dst + (2 * j + 1)) = g (s.byteAt (s.src + 2 * j)) := by
  have D := State.deliver_completed (size := 2) (lanes := s.count / 2)
    (lane := fun j => (join (g (s.byteSample s.src (2 * j))) (g (s.byteSample s.src (2 * j + 1)))).setWidth 32)
    (n := s.count / 2) (t := wideningTrunc s.count) (State.allInRange_two.mpr h)
  refine ⟨by rw [Nat.mul_comm 2]; exact D.1, ?_⟩
  intro j hj
  have h1 := D.2 j 0 (by omega) (by omega)
  have h2 := D.2 j 1 (by omega) (by omega)
  rw [State.byteSample_eq, State.byteSample_eq, Nat.mul_comm j 2] at h1 h2
  unfold State.joinBytes
  constructor
  · rw [show s.dst + 2 * j = s.dst + 2 * j + 0 by omega, h1]
    apply BitVec.eq_of_getLsbD_eq
    intro i hi
    simp [getLsbD_join, hi]
  · rw [show s.dst + (2 * j + 1) = s.dst + 2 * j + 1 by omega, h2]
    apply BitVec.eq_of_getLsbD_eq
    intro i hi
    rw [BitVec.getLsbD_setWidth, BitVec.getLsbD_ushiftRight, BitVec.getLsbD_setWidth, getLsbD_join,
      if_neg (by omega), show 8 * 1 + i - 8 = i by omega]
    simp [hi]
    intro
    omega

theorem State.joinBytes_failed {s : State} (g : Byte → Byte)
    (h : ¬(InRange s s.src s.count ∧ InRange s s.dst (2 * (s.count / 2)))) :
    Failed s (s.joinBytes g) .outOfRange :=
  State.deliver_failed (by rwa [State.allInRange_two])

/-! ### copyHalfwords -/

theorem State.copyHalfwords_completed {s : State} (h : InRange s s.src (2 * s.count) ∧ InRange s s.dst (2 * s.count)) :
    Completed s s.copyHalfwords s.dst (2 * s.count) s.count false ∧
      ∀ k, k < 2 * s.count → s.copyHalfwords.byteAt (s.dst + k) = s.byteAt (s.src + k) := by
  have D := State.deliver_completed (size := 2) (lanes := s.count) (lane := fun j => s.elem s.src j 2) (n := s.count)
    (t := false) (State.allInRange_two.mpr h)
  refine ⟨by rw [Nat.mul_comm 2]; exact D.1, ?_⟩
  intro k hk
  have h1 := D.2 (k / 2) (k % 2) (by omega) (by omega)
  rw [Nat.add_assoc, Nat.div_add_mod' k 2] at h1
  unfold State.copyHalfwords
  rw [h1]
  apply BitVec.eq_of_getLsbD_eq
  intro i hi
  rw [BitVec.getLsbD_setWidth, BitVec.getLsbD_ushiftRight, State.elem, State.getLsbD_memRead,
    show (8 * (k % 2) + i) / 8 = k % 2 by omega, show (8 * (k % 2) + i) % 8 = i by omega, Nat.add_assoc,
    Nat.div_add_mod' k 2]
  simp [hi]
  intro
  omega

theorem State.copyHalfwords_failed {s : State} (h : ¬(InRange s s.src (2 * s.count) ∧ InRange s s.dst (2 * s.count))) :
    Failed s s.copyHalfwords .outOfRange :=
  State.deliver_failed (by rwa [State.allInRange_two])

end Sys2Proof.Machine
end

