-- ==== Sys2Proof/Laws/Step.lean ====
section
/-! SUPPORT. Everything a step can do, and that every command completes. -/

namespace Sys2Proof.Machine

/-- The one inversion of the mover: who moves, and what that says of BUSY, the turns and the script. -/
theorem State.mover_cases (s : State) :
    (s.mover = .idle ∧ s.status.busy = false ∧ s.env.script = []) ∨
    (∃ op rest, s.mover = .host op rest ∧ s.env.script = op :: rest ∧
      (s.status.busy = false ∨ ∃ ts, s.env.turns = .host :: ts)) ∨
    (s.mover = .engine ∧ s.status.busy = true ∧
      (s.env.script = [] ∨ s.env.turns = [] ∨ ∃ ts, s.env.turns = .engine :: ts)) := by
  cases hb : s.status.busy with
  | false =>
    cases hs : s.env.script with
    | nil => exact .inl ⟨by simp [State.mover, hb, hs], rfl, rfl⟩
    | cons op rest => exact .inr (.inl ⟨op, rest, by simp [State.mover, hb, hs], rfl, .inl rfl⟩)
  | true =>
    cases ht : s.env.turns with
    | nil => exact .inr (.inr ⟨by simp [State.mover, hb, ht], rfl, .inr (.inl rfl)⟩)
    | cons a ts =>
      cases a with
      | engine => exact .inr (.inr ⟨by simp [State.mover, hb, ht], rfl, .inr (.inr ⟨ts, rfl⟩)⟩)
      | host =>
        cases hs : s.env.script with
        | nil => exact .inr (.inr ⟨by simp [State.mover, hb, ht, hs], rfl, .inl rfl⟩)
        | cons op rest => exact .inr (.inl ⟨op, rest, by simp [State.mover, hb, ht, hs], rfl, .inr ⟨ts, rfl⟩⟩)

/-- The one inversion of step. -/
theorem step_cases (s : State) :
    (s.mover = .idle ∧ step s = .next s) ∨
    (∃ op rest, s.mover = .host op rest ∧ step s = hostStep op (s.takeTurn.withScript rest)) ∨
    (s.mover = .engine ∧ step s = engineStep s.takeTurn) := by
  rcases s.mover_cases with ⟨h, _⟩ | ⟨op, rest, h, _⟩ | ⟨h, _⟩
  · exact .inl ⟨h, by simp [step, h]⟩
  · exact .inr (.inl ⟨op, rest, h, by simp [step, h]⟩)
  · exact .inr (.inr ⟨h, by simp [step, h]⟩)

/-- A run whose first step answers a next state goes on from there. -/
theorem run_succ_of_next {s t : State} (k : Nat) (h : step s = .next t) :
    Host.Core.run Sys2Proof.core (k + 1) s = Host.Core.run Sys2Proof.core k t := by
  have h' : Sys2Proof.core.step s = .next t := h
  have e := Host.Core.run.eq_2 Sys2Proof.core s k
  rw [h'] at e
  exact e

/-- A run whose first step is refused is refused. -/
theorem run_succ_of_refused {s : State} {r : Refusal} (k : Nat) (h : step s = .refused r) :
    Host.Core.run Sys2Proof.core (k + 1) s = .refused r := by
  have h' : Sys2Proof.core.step s = .refused r := h
  have e := Host.Core.run.eq_2 Sys2Proof.core s k
  rw [h'] at e
  exact e

/-- A run of no steps answers the state. -/
theorem run_zero (s : State) : Host.Core.run Sys2Proof.core 0 s = .next s := rfl

/-- What the engine's step is: the decoded command's meaning, or ILLEGAL_CMD. -/
theorem engineStep_cases (s : State) :
    (∃ i, decode s.lastCmd = .ok i ∧ engineStep s = exec i s) ∨
    (∃ e, decode s.lastCmd = .error e ∧ engineStep s = .next (s.raise .illegalCmd)) := by
  unfold engineStep
  cases h : decode s.lastCmd with
  | ok i => exact .inl ⟨i, rfl, rfl⟩
  | error e => exact .inr ⟨e, rfl, rfl⟩

/-- While a command is pending a step uses up one turn. -/
theorem State.takeTurn_of_busy {s : State} (h : s.status.busy = true) :
    s.takeTurn = { s with env := { s.env with turns := s.env.turns.tail } } := by
  simp [State.takeTurn, h]

/-- The engine's turn is the engine's step. -/
theorem step_of_engine {s : State} (h : s.mover = .engine) : step s = engineStep s.takeTurn := by
  simp [step, h]

/-- The host's turn is its next access. -/
theorem step_of_host {s : State} {op : HostOp} {rest : List HostOp} (h : s.mover = .host op rest) :
    step s = hostStep op (s.takeTurn.withScript rest) := by
  simp [step, h]

end Sys2Proof.Machine
end

