-- ==== Sys2Proof/Tests/Slice0.lean ====
section
/-! SUPPORT. The model's own tests, every expected value from spec/95_test_vectors.md or written out from an encoding of
30_encoding.md, and a witness for the hypotheses of each statement. -/

namespace Sys2Proof.Tests

open Sys2Proof Sys2Proof.Machine

/-! ### Helpers -/

/-- Bytes at consecutive offsets, as a memory. -/
def cells (a : Nat) (bs : List Byte) : Memory :=
  match bs with
  | [] => []
  | b :: rest => (a, b) :: cells (a + 1) rest

/-- The start state of the vectors of 95_test_vectors.md: reset, SRC_ADDR 0x100, VAL_ADDR 0x200, DST_ADDR 0x300. -/
def start (count : Word) (ram : Memory) : State :=
  { State.reset with
    opnd := { srcAddr := 0x100, valAddr := 0x200, dstAddr := 0x300, count := count, changed := 0, channels := 0,
              msgLen := 0 }
    ram := ram }

/-- 16-bit pixels. -/
def wide (s : State) : State := { s with pixw := true }

/-- With the frame registers set. -/
def framed (channels msgLen : Word) (s : State) : State :=
  { s with opnd := { s.opnd with channels := channels, msgLen := msgLen } }

/-- With CHANGED set. -/
def changing (k : Word) (s : State) : State := { s with opnd := { s.opnd with changed := k } }

/-- With a command pending, its word in LAST_CMD. -/
def pending (w : Word) (s : State) : State := s.issue w

/-- With a script and turns. -/
def hosted (script : List HostOp) (turns : List Agent) (s : State) : State :=
  { s with env := { script := script, turns := turns, replies := [] } }

/-- The outcome is a next state with this STATUS and RESULT_COUNT and these bytes from `a` on. -/
def gives (o : Outcome) (status rc : Word) (a : Nat) (bytes : List Byte) : Bool :=
  match o with
  | .next t =>
    decide (t.status.toWord = status ∧ t.resultCount = rc) &&
      decide ((List.range bytes.length).map (fun k => t.byteAt (a + k)) = bytes)
  | .fault _ => false
  | .refused _ => false

/-- The outcome is a next state in which the host has read this value last. -/
def answers (o : Outcome) (v : Word) : Bool :=
  match o with
  | .next t => decide (t.env.replies.head? = some v)
  | .fault _ => false
  | .refused _ => false

/-- The outcome is this refusal. -/
def refuses (o : Outcome) (r : Refusal) : Bool :=
  match o with
  | .next _ => false
  | .fault _ => false
  | .refused q => decide (q = r)

/-! ### WellFormed: an ill-formed term for each check -/

theorem test_plane_256_is_ill_formed : Instr.wellFormed (.getbp 256) = false ∧ Instr.wellFormed (.getbp 255) = true := by
  decide
theorem test_setbp_plane_checked : Instr.wellFormed (.setbp 256) = false := by decide
theorem test_setbpp_plane_checked : Instr.wellFormed (.setbpp 256) = false := by decide
theorem test_fenc_plane_checked : Instr.wellFormed (.fenc 256) = false := by decide
theorem test_fdec_plane_checked : Instr.wellFormed (.fdec 256) = false := by decide
theorem test_source_type_16_is_ill_formed : Instr.wellFormed (.cvt 16 0) = false := by decide
theorem test_target_type_16_is_ill_formed :
    Instr.wellFormed (.cvt 0 16) = false ∧ Instr.wellFormed (.cvt 15 15) = true := by decide

/-! ### Decode: each command's word, written bit by bit from 30_encoding.md R70 to R74 -/

-- format N: 31:8 zero, 7:0 opcode
theorem test_decode_i8tou8 : decode 0b00000000000000000000000000010000 = .ok .i8tou8 := by decide
theorem test_decode_u8toi8 : decode 0b00000000000000000000000000010001 = .ok .u8toi8 := by decide
theorem test_decode_i16toi8 : decode 0b00000000000000000000000000010010 = .ok .i16toi8 := by decide
theorem test_decode_i8toi16 : decode 0b00000000000000000000000000010011 = .ok .i8toi16 := by decide
-- format T: 31:16 zero, 15:12 DTYPE, 11:8 STYPE, 7:0 opcode; DTYPE 1, STYPE 2
theorem test_decode_cvt : decode 0b00000000000000000001001000010100 = .ok (.cvt 2 1) := by decide
-- format P: 31:16 zero, 15:8 PLANE, 7:0 opcode
theorem test_decode_getbp : decode 0b00000000000000001111111100100000 = .ok (.getbp 255) := by decide
theorem test_decode_setbp : decode 0b00000000000000000000010000100001 = .ok (.setbp 4) := by decide
theorem test_decode_setbpp : decode 0b00000000000000000000011100100010 = .ok (.setbpp 7) := by decide
theorem test_decode_fenc : decode 0b00000000000000000000111100110000 = .ok (.fenc 15) := by decide
theorem test_decode_fdec : decode 0b00000000000000000000100000110001 = .ok (.fdec 8) := by decide
-- SW-13, BP-15, BP-16 and the ends of the reserved fields
theorem test_decode_rejects_reserved_bits :
    decode 0x00000110 = .error .reservedBits ∧ decode 0x80000013 = .error .reservedBits ∧
    decode 0x00010020 = .error .reservedBits ∧ decode 0x80000014 = .error .reservedBits := by decide
theorem test_decode_rejects_unlisted_opcodes :
    decode 0x00000000 = .error .unlistedOpcode ∧ decode 0x00000023 = .error .unlistedOpcode ∧
    decode 0xDEADBEEF = .error .unlistedOpcode ∧ decode 0x00000015 = .error .unlistedOpcode := by decide
theorem test_decode_table_word : decodeTableWord 32 0x0530 = some (.fenc 5) ∧ decodeTableWord 32 0x23 = none := by
  decide

/-! ### The sample-width family (vectors SW) -/

-- SW-1
theorem test_i8tou8_endpoints :
    gives (execI8toU8 (start 4 (cells 0x100 [0x80, 0xFF, 0x00, 0x7F]))) 0x0002 4 0x300 [0x00, 0x7F, 0x80, 0xFF] = true := by
  decide
-- SW-20: the destination overlaps the source by two bytes
theorem test_i8tou8_reads_the_snapshot :
    gives (execI8toU8 ((start 3 (cells 0x100 [1, 2, 3])).aimed 0x100 0x101 3)) 0x0002 3 0x101 [0x81, 0x82, 0x83] = true := by
  decide
-- SW-2
theorem test_u8toi8_endpoints :
    gives (execU8toI8 (start 4 (cells 0x100 [0x00, 0x7F, 0x80, 0xFF]))) 0x0002 4 0x300 [0x80, 0xFF, 0x00, 0x7F] = true := by
  decide
-- SW-3
theorem test_i16toi8_splits :
    gives (execI16toI8 (start 3 (cells 0x100 [0xFF, 0x7F, 0x00, 0x80, 0xFF, 0xFF]))) 0x0002 6 0x300
      [0x7F, 0xFF, 0x80, 0x00, 0xFF, 0xFF] = true := by decide
-- SW-18, in place
theorem test_i16toi8_in_place :
    gives (execI16toI8 ((start 2 (cells 0x100 [0x64, 0x00, 0x9C, 0xFF])).aimed 0x100 0x100 2)) 0x0002 4 0x100
      [0x00, 0x64, 0xFF, 0x9C] = true := by decide
-- SW-4
theorem test_i8toi16_joins :
    gives (execI8toI16 (start 4 (cells 0x100 [0x80, 0x00, 0x7F, 0xFF]))) 0x0002 2 0x300 [0x00, 0x80, 0xFF, 0x7F] = true := by
  decide
-- SW-5, with a byte at DST to show that nothing is written
theorem test_i8toi16_drops_an_odd_byte :
    gives (execI8toI16 (start 1 ((0x100, 0x7F) :: cells 0x300 [0xAA]))) 0x000A 0 0x300 [0xAA] = true := by decide
-- SW-8
theorem test_cvt_uint8_to_int16 :
    gives (execCvt 1 2 (start 5 (cells 0x100 [0x80, 0xE4, 0x7F, 0x1C, 0xFF]))) 0x000A 2 0x300
      [0x64, 0x00, 0x9C, 0xFF] = true := by decide
-- SW-12: the type error comes before the empty count
theorem test_cvt_unsupported_type : gives (execCvt 0 15 (start 0 [])) 0x0206 0 0 [] = true := by decide

/-! ### Regions (20_memory.md R54) -/

-- SW-15: 0xFFFF + 2 > 65536
theorem test_region_past_the_end :
    gives (execI16toI8 ((start 1 (cells 0xFFFF [5])).aimed 0xFFFF 0x300 1)) 0x0506 0 0xFFFF [5] = true := by decide
-- SW-16: 0xFFFF + 1 = 65536
theorem test_region_to_the_end :
    gives (execI8toU8 ((start 1 (cells 0xFFFF [5])).aimed 0xFFFF 0x300 1)) 0x0002 1 0x300 [0x85] = true := by decide
-- SW-17
theorem test_region_empty : gives (execI8toU8 ((start 0 []).aimed 0xFFFFFFFF 0xFFFFFFFF 0)) 0x0002 0 0 [] = true := by
  decide
-- SW-19
theorem test_region_full_source : gives (execI8toI16 ((start 3 []).aimed 0xFFFE 0x300 3)) 0x0506 0 0 [] = true := by decide

/-! ### The bit-plane family (vectors BP) -/

-- BP-4: 16-bit pixels, the top plane
theorem test_getbp_wide :
    gives (execGetbp 15 (wide (start 2 (cells 0x100 [0x00, 0x80, 0xFF, 0x7F])))) 0x0002 2 0x300 [1, 0, 0, 0] = true := by
  decide
-- BP-3
theorem test_getbp_plane_8 :
    gives (execGetbp 8 (start 1 ((0x100, 0xFF) :: cells 0x300 [0xAA]))) 0x0306 0 0x300 [0xAA] = true := by decide
-- BP-8: a value counts as a whole halfword
theorem test_setbp_wide :
    gives (execSetbp 0 (wide (start 2 (cells 0x100 [0x34, 0x12, 0x01, 0x00] ++ cells 0x200 [0x00, 0x01, 0x00, 0x00]))))
      0x0002 2 0x300 [0x35, 0x12, 0x00, 0x00] = true := by decide
-- BP-7
theorem test_setbp_bytes :
    gives (execSetbp 4 (start 4 (cells 0x100 [0xFF, 0x00, 0x10, 0x10] ++ cells 0x200 [0x00, 0x01, 0x02, 0x00])))
      0x0002 4 0x300 [0xEF, 0x10, 0x10, 0x00] = true := by decide
-- BP-12, in place
theorem test_setbpp_in_place :
    gives (execSetbpp 3 (changing 3 ((start 4 (cells 0x100 [0xF0, 0x08, 0xF0, 0x08] ++ cells 0x200 [9, 0, 0, 0])).aimed
      0x100 0x100 4))) 0x0002 4 0x100 [0xF8, 0x00, 0xF0, 0x08] = true := by decide
-- BP-11
theorem test_setbpp_clamps :
    gives (execSetbpp 7 (changing 0xFFFFFFFF (start 3 (cells 0x100 [0x11, 0x22, 0x33] ++ cells 0x200 [1, 0, 1]))))
      0x0002 3 0x300 [0x91, 0x22, 0xB3] = true := by decide

/-! ### The frame family (vectors FC) -/

-- FC-1
theorem test_fenc_truncates :
    gives (execFenc 0 (framed 3 2 (start 12 (cells 0x100 [0, 0, 0, 0, 0, 0, 0, 0, 0, 0, 0, 0] ++ cells 0x200 [0xA5, 0xFF]))))
      0x000A 1 0x300 [1, 0, 1, 0, 0, 1, 0, 1, 0, 0, 0, 0] = true := by decide
-- FC-15: the shape is checked before the regions
theorem test_fenc_shape_first :
    gives (execFenc 0 (framed 0 1 ((start 8 []).aimed 0xFFFF 0x300 8))) 0x0406 0 0 [] = true := by decide
-- FC-2
theorem test_fdec_extracts :
    gives (execFdec 0 (framed 3 0 (start 12 (cells 0x100 [1, 0, 1, 0, 0, 1, 0, 1, 0, 0, 0, 0])))) 0x000A 1 0x300 [0xA5] =
      true := by decide
-- FC-10: the plane is checked before the shape
theorem test_fdec_plane_first : gives (execFdec 8 (start 8 [])) 0x0306 0 0 [] = true := by decide

/-! ### The engine, reset and the host port (vectors HS) -/

-- HS-6: ISSUE 0xDEADBEEF, then the engine
theorem test_engine_illegal_word : gives (step (pending 0xDEADBEEF (start 1 []))) 0x0106 0 0 [] = true := by decide
theorem test_fetch_word_runs :
    gives (step (State.withFetchWord (start 4 (cells 0x100 [0x80, 0xFF, 0x00, 0x7F])) 32 0x10)) 0x0002 4 0x300
      [0x00, 0x7F, 0x80, 0xFF] = true := by decide
-- HS-1
theorem test_reset_reads :
    answers (hostStep (.readCsr 0x000 4) State.reset) 0x42504331 = true ∧
    answers (hostStep (.readCsr 0x004 4) State.reset) 0 = true ∧
    answers (hostStep (.readCsr 0x030 4) State.reset) 0 = true := by decide
-- HS-2
theorem test_cfg_keeps_bit_0 : (State.reset.csrWrite 0x00C 0xFFFFFFFF).csrRead 0x00C = 1 := by decide
-- HS-5
theorem test_issue_shows_busy : (State.reset.csrWrite 0x008 0xDEADBEEF).csrRead 0x004 = 1 := by decide
-- HS-7
theorem test_unaligned_ram_write :
    gives (hostStep (.writeRam 0x011 4 0x11223344) State.reset) 0 0 0x011 [0x44, 0x33, 0x22, 0x11] = true := by decide
-- HS-8, HS-9, HS-10
theorem test_refused_accesses :
    refuses (hostStep (.writeRam 0xFFFF 2 0) State.reset) .ramAccess = true ∧
    refuses (hostStep (.readCsr 0x004 2) State.reset) .csrAccess = true ∧
    refuses (hostStep (.readCsr 0x006 4) State.reset) .csrAccess = true ∧
    refuses (hostStep (.writeCsr 0x01C 4 5) (pending 0x10 State.reset)) .busyHazard = true := by decide
-- HS-12
theorem test_reset_abandons_the_command :
    gives (step (hosted [.reset] [.host] (pending 0x10 (start 1 [])))) 0 0 0 [] = true := by decide
-- a poll while BUSY = 1 keeps the WAIT in the script
theorem test_wait_polls :
    answers (step (hosted [.wait] [.host] (pending 0x10 (start 1 [])))) 1 = true := by decide
-- reading an ID on 16-bit-pixel state, and CMD, which reads 0 (HS-3)
theorem test_cmd_reads_zero : (pending 0x10 State.reset).csrRead 0x008 = 0 := by decide

-- BP-8's source bytes, written bytewise and read as one halfword (20_memory.md R51)
theorem test_ram_read_after_byte_writes :
    answers (hostStep (.readRam 0x100 2) (start 1 (cells 0x100 [0x34, 0x12]))) 0x1234 = true := by decide

/-! ### The assembler (30_encoding.md R81, R82) -/

theorem test_assemble_cvt : assemble "CVT int16, uint8".toList = .ok (.cvt 2 1) := by decide
theorem test_assemble_raw_code : assemble "cvt #3, int8".toList = .ok (.cvt 3 0) := by decide
theorem test_assemble_hex_plane : assemble "GETBP 0xFF".toList = .ok (.getbp 255) := by decide
theorem test_assemble_refuses_a_large_plane : assemble "FENC 256".toList = .error .doesNotFit := by decide
theorem test_assemble_pseudo : assemble "COPY int16".toList = .ok (.cvt 2 2) := by decide

/-! ### Witnesses: states and operands that meet the hypotheses of each statement, at the boundaries of its clauses -/

/-- The outcome is a next state. -/
def goesOn (o : Outcome) : Bool :=
  match o with
  | .next _ => true
  | .fault _ => false
  | .refused _ => false

/-- The outcome is a next state, with this BUSY. -/
def leavesBusy (o : Outcome) (b : Bool) : Bool :=
  match o with
  | .next t => decide (t.status.busy = b)
  | .fault _ => false
  | .refused _ => false

/-- The outcome is a next state with ERR = 0. -/
def succeeds (o : Outcome) : Bool :=
  match o with
  | .next t => decide (t.status.err = false)
  | .fault _ => false
  | .refused _ => false

/-- A command pending, with nothing of the host's left. -/
def busyState : State := pending 0x10 (start 4 (cells 0x100 [0x80, 0xFF, 0x00, 0x7F]))

theorem witness_ResetRestoresEveryRegister :
    (hosted [.reset, .wait] [] State.reset).mover = .host .reset [.wait] ∧
    (hosted [.reset] [.host] busyState).mover = .host .reset [] := by decide

theorem witness_EveryStepKeepsTheInvariant :
    State.Inv (hosted [] [] busyState) ∧ goesOn (step (hosted [] [] busyState)) = true ∧
    State.Inv (hosted [.writeRam 0xFFFC 4 7] [] State.reset) ∧
    goesOn (step (hosted [.writeRam 0xFFFC 4 7] [] State.reset)) = true ∧
    State.Inv State.reset ∧ goesOn (step State.reset) = true := by decide

theorem witness_DecodeOfEncodeIsTheCommand :
    Instr.wellFormed (.cvt 15 15) = true ∧ Instr.wellFormed (.cvt 0 0) = true ∧ Instr.wellFormed (.fdec 255) = true ∧
    Instr.wellFormed (.fenc 0) = true ∧ Instr.wellFormed .i8toi16 = true := by decide

theorem witness_EncodeOfDecodeIsTheWord : decode 0x0000FF14 = .ok (.cvt 15 15) ∧ decode 0x0000FF31 = .ok (.fdec 255) := by
  decide

theorem witness_DecoderFollowsTheOpcodeMap :
    BitVec.toNat (0x00000013 : Word) / 256 = 0 ∧ BitVec.toNat (0x00000013 : Word) % 256 = 0x13 ∧
    BitVec.toNat (0x00000110 : Word) / 256 ≠ 0 ∧ BitVec.toNat (0x00000110 : Word) % 256 ∈ [0x10, 0x11, 0x12, 0x13] ∧
    BitVec.toNat (0x0000FF31 : Word) / 65536 = 0 ∧ BitVec.toNat (0x0000FF31 : Word) % 256 = 0x31 ∧
    BitVec.toNat (0x00010014 : Word) / 65536 ≠ 0 ∧
    BitVec.toNat (0x00010014 : Word) % 256 ∈ [0x14, 0x20, 0x21, 0x22, 0x30, 0x31] ∧
    BitVec.toNat (0x00000015 : Word) % 256 ∉ [0x10, 0x11, 0x12, 0x13, 0x14, 0x20, 0x21, 0x22, 0x30, 0x31] ∧
    busyState.mover = .engine ∧ decode busyState.lastCmd = .ok .i8tou8 ∧
    (pending 0x110 State.reset).mover = .engine ∧ decode (pending 0x110 State.reset).lastCmd = .error .reservedBits := by
  decide

theorem witness_AssemblerAcceptsExactlyWhatFits :
    "I8ToU8".toList.map Char.toLower = "i8tou8".toList ∧ "FENC".toList.map Char.toLower = "fenc".toList ∧
    "Cvt".toList.map Char.toLower = "cvt".toList ∧ IsNumeral "255".toList 255 ∧ IsNumeral "0xFF".toList 255 ∧
    IsNumeral "256".toList 256 ∧ IsTypeText "int16".toList 2 ∧ IsTypeText "#15".toList 15 ∧ IsTypeText "#16".toList 16 ∧
    assemble " SETBPP 255 ".toList = .ok (.setbpp 255) :=
  ⟨by decide, by decide, by decide, .inl (by decide), .inr ⟨['F', 'F'], by decide, by decide⟩, .inl (by decide),
    .inr (.inr (.inl (by decide))), .inr (.inr (.inr ⟨['1', '5'], by decide, .inl (by decide)⟩)),
    .inr (.inr (.inr ⟨['1', '6'], by decide, .inl (by decide)⟩)), by decide⟩

theorem witness_StepRunsTheDecodedCommand :
    busyState.status.busy = true ∧ decode busyState.lastCmd = .ok .i8tou8 ∧ Instr.wellFormed .i8tou8 = true ∧
    (hosted [] [.host] busyState).env.script = [] ∧ (hosted [.wait] [] busyState).env.turns = [] ∧
    (hosted [.wait] [.engine] busyState).env.turns.head? = some .engine := by decide

theorem witness_StepTakesTheHostsNextAccess :
    (hosted [.wait] [] State.reset).env.script = [.wait] ∧ (hosted [.wait] [] State.reset).status.busy = false ∧
    (hosted [.wait] [.host] busyState).env.script = [.wait] ∧ (hosted [.wait] [.host] busyState).status.busy = true ∧
    (hosted [.wait] [.host] busyState).env.turns.head? = some .host := by decide

theorem witness_IdleBlockKeepsItsState : State.reset.ended := by decide

theorem witness_CommandsNeitherReadNorWriteTheEnvironment : goesOn (exec .i8tou8 busyState) = true := by decide

theorem witness_PendingCommandsEndAndWaitsSeeCompletion :
    busyState.status.busy = true ∧ (hosted [.wait] [.host, .host] busyState).status.busy = true ∧
    (hosted [.wait] [.host, .host] busyState).env.script = .wait :: [] := by decide

-- PR-4 with the WAIT it lacks, and PR-4 itself, which is not disciplined
theorem witness_DisciplinedHostsAreNeverRefused :
    disciplined 65536 false (wcsr .count 1 ++ issueCmd .i8tou8 ++ [.wait] ++ rram 0x300 1) = true ∧
    disciplined 65536 false (wcsr .count 1 ++ issueCmd .i8tou8 ++ rram 0x300 1) = false ∧
    disciplined busyState.bufBytes busyState.status.busy (hosted (rcsr .status ++ [.wait]) [.host] busyState).env.script =
      true := by decide

theorem witness_WritingCmdIssuesTheCommand : State.reset.status.busy = false := by decide

theorem witness_CsrWritesStoreByRegister :
    State.reset.status.busy = false ∧ busyState.status.busy = true ∧ 0x034 % 4 = 0 ∧ 0x034 ≤ 0xFFC ∧
    0xFFC % 4 = 0 ∧ 0x034 ≤ 0xFFC ∧
    -- the clauses' offsets are apart: the reserved ones begin past LAST_CMD
    ¬(0x034 ≤ 0x030) ∧ ¬(0x034 ≤ 0x028) := by decide

theorem witness_CsrReadsAnswerTheCurrentValue :
    0xFFC % 4 = 0 ∧ 0x034 ≤ 0xFFC ∧ 0x030 % 4 = 0 ∧ busyState.status.busy = true ∧
    leavesBusy (step (hosted [.readCsr 0x004 4] [.host] busyState)) true = true ∧
    (hosted [.readCsr 0x004 4] [.host] busyState).status.busy = true := by decide

theorem witness_MalformedAccessesAreRefused :
    ¬(2 = 4 ∧ 0x004 % 4 = 0 ∧ 0x004 ≤ 0xFFC) ∧ ¬(4 = 4 ∧ 0x006 % 4 = 0 ∧ 0x006 ≤ 0xFFC) ∧
    ¬(4 = 4 ∧ 0x1000 % 4 = 0 ∧ 0x1000 ≤ 0xFFC) ∧
    ¬((2 = 1 ∨ 2 = 2 ∨ 2 = 4) ∧ 0xFFFF + 2 ≤ State.reset.bufBytes) ∧
    ¬((3 = 1 ∨ 3 = 2 ∨ 3 = 4) ∧ 0 + 3 ≤ State.reset.bufBytes) ∧
    ¬((1 = 1 ∨ 1 = 2 ∨ 1 = 4) ∧ 0x10000 + 1 ≤ State.reset.bufBytes) := by decide

theorem witness_BusyHazardIsRefused : busyState.status.busy = true ∧ 0xFFC % 4 = 0 := by decide

theorem witness_RamReadAfterWriteAnswersTheValue :
    State.reset.status.busy = false ∧ 0xFFFC + 4 ≤ State.reset.bufBytes ∧ 0xFFFF + 1 ≤ State.reset.bufBytes ∧
    0x011 + 2 ≤ State.reset.bufBytes := by decide

-- the last word of the RAM, and a byte nothing has written
theorem witness_ReadsAreLittleEndian :
    State.reset.status.busy = false ∧ 0xFFFC + 4 ≤ State.reset.bufBytes ∧ 0xFFFF + 1 ≤ State.reset.bufBytes ∧
    State.reset.ram.find? 0xFFFF = none := by decide

theorem witness_CommandsWriteOnlyTheirDestination :
    goesOn (exec (.fdec 0) (framed 1 0 (start 8 (cells 0x100 [0, 1, 0, 1, 0, 1, 0, 1])))) = true ∧
    ¬((start 8 []).dst ≤ 0x301 ∧ 0x301 < (start 8 []).dst + destBytes (.fdec 0) (start 8 [])) ∧
    ¬((start 8 []).dst ≤ 0x2FF ∧ 0x2FF < (start 8 []).dst + destBytes (.fdec 0) (start 8 [])) := by decide

theorem witness_OverlapDoesNotChangeTheResult :
    succeeds (exec .i8tou8 ((start 3 (cells 0x100 [1, 2, 3])).aimed 0x100 0x101 3)) = true ∧
    succeeds (exec .i8tou8 ((start 3 (cells 0x100 [1, 2, 3])).aimed 0x100 0x300 3)) = true ∧
    0 < destBytes .i8tou8 (start 3 []) := by decide

-- the last byte of the RAM, one byte too many, and no byte at all, for each region form of the sample family

theorem witness_I8toU8FlipsEachByte :
    (pending 0x00000110 State.reset).mover = .engine ∧ (pending 0x00000110 State.reset).lastCmd.toNat % 256 = 0x10 ∧
    (pending 0x00000110 State.reset).lastCmd.toNat / 256 ≠ 0 ∧
    (InRange ((start 1 []).aimed 0xFFFF 0xFFFF 1) 0xFFFF 1 ∧ InRange ((start 1 []).aimed 0xFFFF 0xFFFF 1) 0xFFFF 1) ∧
    ¬(InRange (start 2 []) 0xFFFF 2 ∧ InRange (start 2 []) 0x300 2) ∧ InRange (start 0 []) 0xFFFFFFFF 0 := by decide

theorem witness_U8toI8FlipsEachByte :
    (pending 0x80000011 State.reset).mover = .engine ∧ (pending 0x80000011 State.reset).lastCmd.toNat % 256 = 0x11 ∧
    (pending 0x80000011 State.reset).lastCmd.toNat / 256 ≠ 0 ∧
    (InRange (start 4 []) (start 4 []).src (start 4 []).count ∧ InRange (start 4 []) (start 4 []).dst (start 4 []).count) ∧
    ¬(InRange (start 0x10000 []) (start 0x10000 []).src (start 0x10000 []).count ∧
      InRange (start 0x10000 []) (start 0x10000 []).dst (start 0x10000 []).count) := by decide

theorem witness_I16toI8SplitsHighByteFirst :
    (pending 0x00000112 State.reset).mover = .engine ∧ (pending 0x00000112 State.reset).lastCmd.toNat % 256 = 0x12 ∧
    (pending 0x00000112 State.reset).lastCmd.toNat / 256 ≠ 0 ∧
    (InRange (start 3 []) (start 3 []).src (2 * (start 3 []).count) ∧
      InRange (start 3 []) (start 3 []).dst (2 * (start 3 []).count)) ∧
    ¬(InRange ((start 1 []).aimed 0xFFFF 0x300 1) ((start 1 []).aimed 0xFFFF 0x300 1).src 2 ∧
      InRange ((start 1 []).aimed 0xFFFF 0x300 1) 0x300 2) := by decide

theorem witness_I8toI16JoinsBytePairs :
    (pending 0x00000113 State.reset).mover = .engine ∧ (pending 0x00000113 State.reset).lastCmd.toNat % 256 = 0x13 ∧
    (pending 0x00000113 State.reset).lastCmd.toNat / 256 ≠ 0 ∧
    (InRange (start 5 []) (start 5 []).src (start 5 []).count ∧
      InRange (start 5 []) (start 5 []).dst (2 * ((start 5 []).count / 2))) ∧
    -- one byte read, none written, wherever DST_ADDR points
    (InRange ((start 1 []).aimed 0xFFFF 0xFFFFFFFF 1) 0xFFFF 1 ∧
      InRange ((start 1 []).aimed 0xFFFF 0xFFFFFFFF 1) 0xFFFFFFFF (2 * (1 / 2))) ∧
    ¬(InRange ((start 3 []).aimed 0xFFFE 0x300 3) 0xFFFE 3 ∧ InRange ((start 3 []).aimed 0xFFFE 0x300 3) 0x300 2) := by
  decide

theorem witness_CvtConvertsByTheTable :
    15 < 16 ∧ (pending 0x00010314 State.reset).mover = .engine ∧ (pending 0x00010314 State.reset).lastCmd.toNat % 256 = 0x14 ∧
    (pending 0x00010314 State.reset).lastCmd.toNat / 65536 ≠ 0 ∧
    (2 < 3 ∨ 2 < 0) ∧ (2 < 0 ∨ 2 < 15) ∧
    (InRange (start 5 []) (start 5 []).src (start 5 []).count ∧ InRange (start 5 []) (start 5 []).dst (start 5 []).count) ∧
    ¬(InRange (start 0x10000 []) (start 0x10000 []).src (start 0x10000 []).count ∧
      InRange (start 0x10000 []) (start 0x10000 []).dst (start 0x10000 []).count) ∧
    (InRange (start 5 []) (start 5 []).src (2 * (start 5 []).count) ∧
      InRange (start 5 []) (start 5 []).dst (2 * (start 5 []).count)) ∧
    ¬(InRange (start 0x10000 []) (start 0x10000 []).src (2 * (start 0x10000 []).count) ∧
      InRange (start 0x10000 []) (start 0x10000 []).dst (2 * (start 0x10000 []).count)) ∧
    (InRange (start 5 []) (start 5 []).src (start 5 []).count ∧
      InRange (start 5 []) (start 5 []).dst (2 * ((start 5 []).count / 2))) ∧
    ¬(InRange (start 0x10000 []) (start 0x10000 []).src (start 0x10000 []).count ∧
      InRange (start 0x10000 []) (start 0x10000 []).dst (2 * ((start 0x10000 []).count / 2))) := by decide

theorem witness_ChainedRowsEqualTheirTwoCommands :
    BitVec.toNat (6 : Word) = 2 * (start 3 []).count ∧ InRange (start 3 []) (start 3 []).src (2 * (start 3 []).count) ∧
    InRange (start 3 []) (start 3 []).dst (2 * (start 3 []).count) ∧
    InRange (start 3 []) (BitVec.toNat (0x400 : Word)) (2 * (start 3 []).count) ∧
    InRange (start 3 []) (start 3 []).src (start 3 []).count ∧ InRange (start 3 []) (start 3 []).dst (start 3 []).count ∧
    InRange (start 3 []) (BitVec.toNat (0xFFFE : Word)) (2 * ((start 3 []).count / 2)) := by decide

theorem witness_Int16SurvivesSplitThenJoin :
    BitVec.toNat (6 : Word) = 2 * (start 3 []).count ∧ InRange (start 3 []) (start 3 []).src (2 * (start 3 []).count) ∧
    InRange (start 3 []) (start 3 []).dst (2 * (start 3 []).count) ∧
    InRange (start 3 []) (BitVec.toNat (0xFFFA : Word)) (2 * (start 3 []).count) := by decide

theorem witness_BytesSurviveBothSignChanges :
    InRange (start 3 []) (start 3 []).src (start 3 []).count ∧ InRange (start 3 []) (start 3 []).dst (start 3 []).count ∧
    InRange (start 3 []) (BitVec.toNat (0xFFFD : Word)) (start 3 []).count := by decide

theorem witness_Int16SurvivesTheUint8Chain :
    BitVec.toNat (4 : Word) = 2 * (start 2 []).count ∧ InRange (start 2 []) (start 2 []).src (2 * (start 2 []).count) ∧
    InRange (start 2 []) (start 2 []).dst (2 * (start 2 []).count) ∧
    InRange (start 2 []) (BitVec.toNat (0xFFFC : Word)) (2 * (start 2 []).count) := by decide

theorem witness_WideningThenNarrowingKeepsWholePairs :
    BitVec.toNat (2 : Word) = (start 5 []).count / 2 ∧ InRange (start 5 []) (start 5 []).src (start 5 []).count ∧
    InRange (start 5 []) (start 5 []).dst (2 * ((start 5 []).count / 2)) ∧
    InRange (start 5 []) (BitVec.toNat (0xFFFC : Word)) (2 * ((start 5 []).count / 2)) := by decide

theorem witness_SampleCommandsIgnorePixelRegisters :
    goesOn (exec .i16toi8 (start 1 (cells 0x100 [1, 2]))) = true ∧ goesOn (exec (.cvt 3 0) (start 1 [])) = true := by decide

theorem witness_PixwSelectsTheElementWidth :
    State.reset.csrRead 0x00C = 0 ∧ (wide State.reset).csrRead 0x00C = 1 := by decide

-- the highest plane of each width, the first that is none, and both region outcomes

theorem witness_GetbpReadsThePlane :
    (pending 0x00010020 State.reset).mover = .engine ∧ (pending 0x00010020 State.reset).lastCmd.toNat % 256 = 0x20 ∧
    (pending 0x00010020 State.reset).lastCmd.toNat / 65536 ≠ 0 ∧
    (start 2 []).pixW ≤ 8 ∧ 7 < (start 2 []).pixW ∧ (wide (start 2 [])).pixW ≤ 16 ∧ 15 < (wide (start 2 [])).pixW ∧
    (InRange (wide (start 2 [])) (wide (start 2 [])).src ((wide (start 2 [])).count * (wide (start 2 [])).pixB) ∧
      InRange (wide (start 2 [])) (wide (start 2 [])).dst ((wide (start 2 [])).count * (wide (start 2 [])).pixB)) ∧
    ¬(InRange (start 0x10000 []) (start 0x10000 []).src ((start 0x10000 []).count * (start 0x10000 []).pixB) ∧
      InRange (start 0x10000 []) (start 0x10000 []).dst ((start 0x10000 []).count * (start 0x10000 []).pixB)) := by decide

theorem witness_SetbpWritesThePlane :
    (pending 0x00010021 State.reset).mover = .engine ∧ (pending 0x00010021 State.reset).lastCmd.toNat % 256 = 0x21 ∧
    (pending 0x00010021 State.reset).lastCmd.toNat / 65536 ≠ 0 ∧
    (start 2 []).pixW ≤ 8 ∧ 7 < (start 2 []).pixW ∧
    (InRange (start 2 []) (start 2 []).src ((start 2 []).count * (start 2 []).pixB) ∧
      InRange (start 2 []) (start 2 []).val ((start 2 []).count * (start 2 []).pixB) ∧
      InRange (start 2 []) (start 2 []).dst ((start 2 []).count * (start 2 []).pixB)) ∧
    -- BP-14: the values region alone is out of range
    ¬(InRange ((start 2 []).withVal 0xFFFF) ((start 2 []).withVal 0xFFFF).src 2 ∧
      InRange ((start 2 []).withVal 0xFFFF) ((start 2 []).withVal 0xFFFF).val 2 ∧
      InRange ((start 2 []).withVal 0xFFFF) ((start 2 []).withVal 0xFFFF).dst 2) := by decide

theorem witness_SetbppWritesTheLeadingElements :
    (pending 0x00010022 State.reset).mover = .engine ∧ (pending 0x00010022 State.reset).lastCmd.toNat % 256 = 0x22 ∧
    (pending 0x00010022 State.reset).lastCmd.toNat / 65536 ≠ 0 ∧
    (wide (start 2 [])).pixW ≤ 16 ∧ 15 < (wide (start 2 [])).pixW ∧
    (InRange (start 2 []) (start 2 []).src ((start 2 []).count * (start 2 []).pixB) ∧
      InRange (start 2 []) (start 2 []).val ((start 2 []).count * (start 2 []).pixB) ∧
      InRange (start 2 []) (start 2 []).dst ((start 2 []).count * (start 2 []).pixB)) ∧
    ¬(InRange ((start 2 []).withVal 0xFFFF) ((start 2 []).withVal 0xFFFF).src 2 ∧
      InRange ((start 2 []).withVal 0xFFFF) ((start 2 []).withVal 0xFFFF).val 2 ∧
      InRange ((start 2 []).withVal 0xFFFF) ((start 2 []).withVal 0xFFFF).dst 2) ∧
    -- CHANGED = COUNT: element 1 is the last before it
    1 < (changing 2 (start 2 [])).changed ∧ ¬(1 < (changing 1 (start 2 [])).changed) := by decide

theorem witness_GetbpAfterSetbpGivesTheTruthOfTheValues :
    7 < (start 4 []).pixW ∧ InRange (start 4 []) (start 4 []).src ((start 4 []).count * (start 4 []).pixB) ∧
    InRange (start 4 []) (start 4 []).val ((start 4 []).count * (start 4 []).pixB) ∧
    InRange (start 4 []) (start 4 []).dst ((start 4 []).count * (start 4 []).pixB) ∧
    InRange (start 4 []) (BitVec.toNat (0xFFFC : Word)) ((start 4 []).count * (start 4 []).pixB) := by decide

theorem witness_GetbpAfterSetbppGivesTheHybridPlane :
    15 < (wide (start 4 [])).pixW ∧
    InRange (wide (start 4 [])) (wide (start 4 [])).src ((wide (start 4 [])).count * (wide (start 4 [])).pixB) ∧
    InRange (wide (start 4 [])) (wide (start 4 [])).val ((wide (start 4 [])).count * (wide (start 4 [])).pixB) ∧
    InRange (wide (start 4 [])) (wide (start 4 [])).dst ((wide (start 4 [])).count * (wide (start 4 [])).pixB) ∧
    InRange (wide (start 4 [])) (BitVec.toNat (0xFFF8 : Word)) ((wide (start 4 [])).count * (wide (start 4 [])).pixB) := by
  decide

-- BP-17: the three regions are one, and every element already has the bit its own value gives
theorem witness_SetbpOfTheOwnPlaneIsTheSource :
    let s := ((start 3 (cells 0x100 [0x00, 0x04, 0x05])).aimed 0x100 0x100 3).withVal 0x100
    2 < s.pixW ∧ InRange s s.src (s.count * s.pixB) ∧ InRange s s.val (s.count * s.pixB) ∧
    InRange s s.dst (s.count * s.pixB) ∧
    ∀ i, i < s.count →
      decide (s.memRead (s.val + i * s.pixB) s.pixB ≠ 0) = (s.memRead (s.src + i * s.pixB) s.pixB).getLsbD 2 := by decide

-- plane 0 from 0x200 and plane 7 from 0x0FC, just below the buffer at 0x100
theorem witness_DistinctPlaneWritesCommute :
    let s := (start 4 []).aimed 0x100 0x100 4
    0 < s.pixW ∧ 7 < s.pixW ∧ 0 ≠ 7 ∧ s.opnd.dstAddr = s.opnd.srcAddr ∧ InRange s s.src (s.count * s.pixB) ∧
    InRange s (BitVec.toNat (0x200 : Word)) (s.count * s.pixB) ∧
    InRange s (BitVec.toNat (0x0FC : Word)) (s.count * s.pixB) ∧
    (BitVec.toNat (0x200 : Word) + s.count * s.pixB ≤ s.src ∨ s.src + s.count * s.pixB ≤ BitVec.toNat (0x200 : Word)) ∧
    (BitVec.toNat (0x0FC : Word) + s.count * s.pixB ≤ s.src ∨ s.src + s.count * s.pixB ≤ BitVec.toNat (0x0FC : Word)) := by
  decide

theorem witness_FencEmbedsTheMessage :
    (pending 0x00010030 State.reset).mover = .engine ∧ (pending 0x00010030 State.reset).lastCmd.toNat % 256 = 0x30 ∧
    (pending 0x00010030 State.reset).lastCmd.toNat / 65536 ≠ 0 ∧
    (start 8 []).pixW ≤ 8 ∧ 7 < (start 8 []).pixW ∧
    -- no channel; ten elements in pixels of three; the shape of FC-1
    (framed 0 1 (start 8 [])).channels = 0 ∧
    (framed 3 1 (start 10 [])).count % (framed 3 1 (start 10 [])).channels ≠ 0 ∧
    (framed 3 2 (start 12 [])).channels ≠ 0 ∧
    (framed 3 2 (start 12 [])).count % (framed 3 2 (start 12 [])).channels = 0 ∧
    (InRange (framed 3 2 (start 12 [])) 0x100 12 ∧ InRange (framed 3 2 (start 12 [])) 0x200 2 ∧
      InRange (framed 3 2 (start 12 [])) 0x300 12) ∧
    -- FC-13: the message region is checked at its full two bytes
    ¬(InRange (framed 1 2 ((start 8 []).withVal 0xFFFF)) 0x100 8 ∧ InRange (framed 1 2 ((start 8 []).withVal 0xFFFF)) 0xFFFF 2 ∧
      InRange (framed 1 2 ((start 8 []).withVal 0xFFFF)) 0x300 8) ∧
    -- element 7 is the last that carries a bit of a full byte
    7 < min (8 * (framed 3 2 (start 12 [])).msgLen) ((framed 3 2 (start 12 [])).count / 8 * 8) ∧
    ¬(8 < min (8 * (framed 3 2 (start 12 [])).msgLen) ((framed 3 2 (start 12 [])).count / 8 * 8)) := by decide

theorem witness_FdecExtractsTheMessage :
    (pending 0x00010031 State.reset).mover = .engine ∧ (pending 0x00010031 State.reset).lastCmd.toNat % 256 = 0x31 ∧
    (pending 0x00010031 State.reset).lastCmd.toNat / 65536 ≠ 0 ∧
    (wide (start 8 [])).pixW ≤ 16 ∧ 15 < (wide (start 8 [])).pixW ∧
    (framed 0 0 (start 8 [])).channels = 0 ∧
    (framed 3 0 (start 12 [])).channels ≠ 0 ∧
    (framed 3 0 (start 12 [])).count % (framed 3 0 (start 12 [])).channels = 0 ∧
    (InRange (framed 3 0 (start 12 [])) 0x100 12 ∧ InRange (framed 3 0 (start 12 [])) 0x300 (12 / 8)) ∧
    -- fewer than eight elements write nothing, wherever DST_ADDR points
    InRange (framed 7 0 (start 7 [])) 0xFFFFFFFF (7 / 8) ∧
    ¬(InRange (framed 1 0 (start 0x10000 [])) 0x100 0x10000 ∧ InRange (framed 1 0 (start 0x10000 [])) 0x300 0x2000) := by
  decide

-- FC-11: the message fills the capacity
theorem witness_EmbeddedMessageComesBack :
    let s := framed 2 1 (start 8 [])
    7 < s.pixW ∧ s.channels ≠ 0 ∧ s.count % s.channels = 0 ∧ InRange s s.src (s.count * s.pixB) ∧
    InRange s s.val s.msgLen ∧ InRange s s.dst (s.count * s.pixB) ∧ InRange s (BitVec.toNat (0xFFFF : Word)) (s.count / 8) ∧
    8 * s.msgLen ≤ s.count / 8 * 8 := by decide

-- FC-1: one byte fits of two
theorem witness_OversizedMessageIsTruncated :
    let s := framed 3 2 (start 12 [])
    0 < s.pixW ∧ s.channels ≠ 0 ∧ s.count % s.channels = 0 ∧ InRange s s.src (s.count * s.pixB) ∧
    InRange s s.val s.msgLen ∧ InRange s s.dst (s.count * s.pixB) ∧ InRange s (BitVec.toNat (0x400 : Word)) (s.count / 8) ∧
    s.count / 8 * 8 < 8 * s.msgLen := by decide

theorem witness_EmbeddingLeavesOtherPlanesReadable :
    let s := wide (framed 3 2 (start 12 []))
    15 < s.pixW ∧ 0 < s.pixW ∧ 15 ≠ 0 ∧ s.channels ≠ 0 ∧ s.count % s.channels = 0 ∧
    InRange s s.src (s.count * s.pixB) ∧ InRange s s.val s.msgLen ∧ InRange s s.dst (s.count * s.pixB) ∧
    InRange s (BitVec.toNat (0x400 : Word)) (s.count / 8) := by decide

-- FC-14a and FC-14b
theorem witness_ChannelCountChangesNoOutput :
    (1 : Word) ≠ 0 ∧ (start 24 []).count % BitVec.toNat (1 : Word) = 0 ∧ (3 : Word) ≠ 0 ∧
    (start 24 []).count % BitVec.toNat (3 : Word) = 0 := by decide

end Sys2Proof.Tests
end

/-! SUPPORT. The CSR port: what a read answers and a write stores at each offset (10_state.md R33, R35, R36), and that a
step which leaves a command pending touches no part of the block. -/

namespace Sys2Proof.Machine

/-! ### The CSR map -/

/-- The last register is LAST_CMD. -/
theorem Csr.offset_le (c : Csr) : c.offset ≤ 0x030 := by cases c <;> decide

/-- The offsets past LAST_CMD are reserved. -/
theorem csrAt?_of_reserved {o : Nat} (h : 0x034 ≤ o) : csrAt? o = none := by
  cases hc : csrAt? o with
  | none => rfl
  | some c =>
    have ho := offset_of_csrAt? hc
    have hle := c.offset_le
    omega

theorem csrAccessOk_word {o : Nat} (h4 : o % 4 = 0) (hle : o ≤ 0xFFC) : csrAccessOk o 4 = true := by
  simp [csrAccessOk, h4, hle]

theorem Csr.accessOk (c : Csr) : csrAccessOk c.offset 4 = true := by cases c <;> decide

/-! ### Bits of the registers -/

theorem flagBit_zero (b : Bool) : flagBit b 0 = if b then 1 else 0 := by simp [flagBit]

/-- Bit 0 of a word alone, as CFG keeps it. -/
theorem flagBit_getLsbD_zero (v : Word) : flagBit (v.getLsbD 0) 0 = v &&& 1 := by
  rw [flagBit_zero, ← bit_eq_ite, bit, BitVec.ushiftRight_zero]

/-- A flag is the lowest bit of its word exactly where its position is 0. -/
theorem getLsbD_zero_flagBit (b : Bool) (i : Nat) : (flagBit b i).getLsbD 0 = (decide (i = 0) && b) := by
  cases b with
  | false => simp [flagBit]
  | true => cases i <;> simp [flagBit, -BitVec.getLsbD_eq_getElem, BitVec.getLsbD_ofNat]

/-- Bit 0 of STATUS is BUSY (10_state.md R24). -/
theorem Status.getLsbD_zero_toWord (st : Status) : st.toWord.getLsbD 0 = st.busy := by
  simp only [Status.toWord, BitVec.getLsbD_or, getLsbD_zero_flagBit, BitVec.getLsbD_shiftLeft]
  simp

/-! ### Reads -/

@[simp] theorem State.csrRead_offset (s : State) (c : Csr) : s.csrRead c.offset = s.csrValue c := by
  simp [State.csrRead, csrAt?_offset]

theorem State.csrRead_of_reserved (s : State) {o : Nat} (h : 0x034 ≤ o) : s.csrRead o = 0 := by
  simp [State.csrRead, csrAt?_of_reserved h]

/-- What surrounds the block is in no register. -/
theorem State.csrRead_withEnv (s : State) (e : Env) (o : Nat) :
    State.csrRead { s with env := e } o = s.csrRead o := rfl

theorem hostStep_readCsr (s : State) {o : Nat} (hok : csrAccessOk o 4 = true) :
    hostStep (.readCsr o 4) s = .next (s.reply (s.csrRead o)) := by
  simp [hostStep, hok]

/-! ### Writes -/

theorem hostStep_writeCsr {s : State} {o : Nat} (v : Word) (hok : csrAccessOk o 4 = true)
    (hb : s.status.busy = false) : hostStep (.writeCsr o 4 v) s = .next (s.csrWrite o v) := by
  simp [hostStep, hok, hb]

theorem hostStep_writeCsr_busy {s : State} {o : Nat} (v : Word) (hok : csrAccessOk o 4 = true)
    (hb : s.status.busy = true) : hostStep (.writeCsr o 4 v) s = .refused .busyHazard := by
  simp [hostStep, hok, hb]

theorem State.csrWrite_of_reserved (s : State) {o : Nat} (v : Word) (h : 0x034 ≤ o) : s.csrWrite o v = s := by
  simp [State.csrWrite, csrAt?_of_reserved h]

/-- ID, STATUS, RESULT_COUNT and LAST_CMD ignore a write. -/
theorem State.csrWrite_of_readOnly (s : State) {c : Csr} (v : Word)
    (h : c = .id ∨ c = .status ∨ c = .resultCount ∨ c = .lastCmd) : s.csrWrite c.offset v = s := by
  rcases h with rfl | rfl | rfl | rfl <;> rfl

/-! ### Every command completes (10_state.md R34) -/

theorem State.deliver_completes (s : State) (regions : List (Nat × Nat)) (size lanes : Nat) (lane : Nat → Word)
    (n : Nat) (t : Bool) :
    (s.deliver regions size lanes lane n t).status.busy = false ∧
      (s.deliver regions size lanes lane n t).status.done = true := by
  unfold State.deliver
  split <;> exact ⟨rfl, rfl⟩

theorem State.withPlane_completes {s rest : State} (plane : Nat)
    (h : rest.status.busy = false ∧ rest.status.done = true) :
    (s.withPlane plane rest).status.busy = false ∧ (s.withPlane plane rest).status.done = true := by
  rw [State.withPlane_eq]
  split
  · exact h
  · exact ⟨rfl, rfl⟩

theorem State.withFrame_completes {s rest : State} (plane : Nat)
    (h : rest.status.busy = false ∧ rest.status.done = true) :
    (s.withFrame plane rest).status.busy = false ∧ (s.withFrame plane rest).status.done = true := by
  apply State.withPlane_completes
  split
  · exact h
  · exact ⟨rfl, rfl⟩

/-- Every row of the conversion table ends in deliver. -/
theorem State.convert_completes (s : State) (source target : SampleType) :
    (s.convert source target).status.busy = false ∧ (s.convert source target).status.done = true := by
  cases source <;> cases target <;> exact State.deliver_completes ..

theorem execCvt_completes (stype dtype : Nat) (s : State) :
    ∃ t, execCvt stype dtype s = .next t ∧ t.status.busy = false ∧ t.status.done = true := by
  unfold execCvt
  split
  · exact ⟨_, rfl, State.convert_completes ..⟩
  · exact ⟨_, rfl, rfl, rfl⟩

theorem exec_completes (i : Instr) (s : State) :
    ∃ t, exec i s = .next t ∧ t.status.busy = false ∧ t.status.done = true := by
  cases i with
  | i8tou8 => exact ⟨_, rfl, State.deliver_completes ..⟩
  | u8toi8 => exact ⟨_, rfl, State.deliver_completes ..⟩
  | i16toi8 => exact ⟨_, rfl, State.deliver_completes ..⟩
  | i8toi16 => exact ⟨_, rfl, State.deliver_completes ..⟩
  | cvt stype dtype => exact execCvt_completes stype dtype s
  | getbp plane => exact ⟨_, rfl, State.withPlane_completes plane (State.deliver_completes ..)⟩
  | setbp plane => exact ⟨_, rfl, State.withPlane_completes plane (State.deliver_completes ..)⟩
  | setbpp plane => exact ⟨_, rfl, State.withPlane_completes plane (State.deliver_completes ..)⟩
  | fenc plane => exact ⟨_, rfl, State.withFrame_completes plane (State.deliver_completes ..)⟩
  | fdec plane => exact ⟨_, rfl, State.withFrame_completes plane (State.deliver_completes ..)⟩

/-- The engine's step ends the pending command, a legal word or not. -/
theorem engineStep_completes (s : State) :
    ∃ t, engineStep s = .next t ∧ t.status.busy = false ∧ t.status.done = true := by
  obtain ⟨i, _, h⟩ | ⟨e, _, h⟩ := engineStep_cases s
  · rw [h]
    exact exec_completes i s
  · exact ⟨_, h, rfl, rfl⟩

/-! ### The block stands still while a command is pending -/

/-- A host move from BUSY = 1 to BUSY = 1 is a CSR read or a poll: it changes the environment alone. -/
theorem hostStep_keeps_pending_block {op : HostOp} {s t : State} (hs : s.status.busy = true)
    (h : hostStep op s = .next t) (ht : t.status.busy = true) : t = { s with env := t.env } := by
  obtain ⟨o, -, -, rfl⟩ | ⟨o, v, -, -, hidle, -⟩ | ⟨o, n, -, -, hidle, -⟩ | ⟨o, n, v, -, -, hidle, -⟩ |
    ⟨-, -, rfl⟩ | ⟨-, hidle, -⟩ | ⟨-, rfl⟩ := hostStep_cases h
  · rfl
  · simp [hs] at hidle
  · simp [hs] at hidle
  · simp [hs] at hidle
  · rfl
  · simp [hs] at hidle
  · cases ht

/-- Until the command completes or is abandoned, a step changes the environment alone (10_state.md R36). -/
theorem step_keeps_pending_block {s t : State} (hs : s.status.busy = true) (h : step s = .next t)
    (ht : t.status.busy = true) : t = { s with env := t.env } := by
  obtain ⟨-, hstep⟩ | ⟨op, rest, -, hstep⟩ | ⟨-, hstep⟩ := step_cases s
  · cases hstep.symm.trans h
    rfl
  · have kept : t = { s.takeTurn.withScript rest with env := t.env } :=
      hostStep_keeps_pending_block (by simpa using hs) (hstep.symm.trans h) ht
    rwa [State.takeTurn_of_busy hs] at kept
  · obtain ⟨u, hu, hidle, -⟩ := engineStep_completes s.takeTurn
    cases hu.symm.trans (hstep.symm.trans h)
    simp [ht] at hidle

/-! ### The statements -/

/-- Settles O19: the answer is csrRead, register by register, and a step that leaves BUSY = 1 changes the environment
alone, which csrRead does not see. -/
theorem csrReadsAnswerTheCurrentValue : Obligations.CsrReadsAnswerTheCurrentValue := by
  unfold Obligations.CsrReadsAnswerTheCurrentValue
  constructor
  · intro s o h4 hle
    refine ⟨s.csrRead o, hostStep_readCsr s (csrAccessOk_word h4 hle), ?_, ?_, ?_, ?_, ?_, ?_, ?_, ?_, ?_, ?_, ?_, ?_,
      ?_, s.csrRead_of_reserved, ?_⟩
    · rintro rfl; exact s.csrRead_offset .id
    · rintro rfl; exact s.csrRead_offset .status
    · rintro rfl; exact s.csrRead_offset .cmd
    · rintro rfl; exact (s.csrRead_offset .cfg).trans (flagBit_zero s.pixw)
    · rintro rfl; exact s.csrRead_offset .srcAddr
    · rintro rfl; exact s.csrRead_offset .valAddr
    · rintro rfl; exact s.csrRead_offset .dstAddr
    · rintro rfl; exact s.csrRead_offset .count
    · rintro rfl; exact s.csrRead_offset .changed
    · rintro rfl; exact s.csrRead_offset .channels
    · rintro rfl; exact s.csrRead_offset .msgLen
    · rintro rfl; exact s.csrRead_offset .resultCount
    · rintro rfl; exact s.csrRead_offset .lastCmd
    · rintro rfl hb
      exact (congrArg (·.getLsbD 0) (s.csrRead_offset .status)).trans ((Status.getLsbD_zero_toWord _).trans hb)
  · intro s t hs h ht o
    rw [step_keeps_pending_block hs h ht]
    exact s.csrRead_withEnv t.env o

/-- Settles O17: the write to CMD is State.issue. -/
theorem writingCmdIssuesTheCommand : Obligations.WritingCmdIssuesTheCommand := by
  unfold Obligations.WritingCmdIssuesTheCommand
  intro s w hb
  exact hostStep_writeCsr w Csr.cmd.accessOk hb

/-- Settles O18: register by register, a write is csrWrite at the register's offset while BUSY = 0. -/
theorem csrWritesStoreByRegister : Obligations.CsrWritesStoreByRegister := by
  unfold Obligations.CsrWritesStoreByRegister
  intro s v
  constructor
  · intro hb
    have write (c : Csr) : hostStep (.writeCsr c.offset 4 v) s = .next (s.csrWrite c.offset v) :=
      hostStep_writeCsr v c.accessOk hb
    refine ⟨?_, write .cmd, ⟨_, write .cfg, rfl, flagBit_getLsbD_zero v⟩, write .srcAddr, write .valAddr,
      write .dstAddr, write .count, write .changed, write .channels, write .msgLen⟩
    intro o h4 hle hro
    rw [hostStep_writeCsr v (csrAccessOk_word h4 hle) hb]
    congr 1
    rcases hro with rfl | rfl | rfl | rfl | hres
    · exact s.csrWrite_of_readOnly v (c := .id) (by decide)
    · exact s.csrWrite_of_readOnly v (c := .status) (by decide)
    · exact s.csrWrite_of_readOnly v (c := .resultCount) (by decide)
    · exact s.csrWrite_of_readOnly v (c := .lastCmd) (by decide)
    · exact s.csrWrite_of_reserved v hres
  · intro hb o h4 hle
    exact hostStep_writeCsr_busy v (csrAccessOk_word h4 hle) hb

end Sys2Proof.Machine

/-! SUPPORT. Assembly and decoding as equations (30_encoding.md R78, R81, R82): which command each line and each word
gives, and what refuses the others. -/

namespace Sys2Proof

/-! ### The decoder, by the opcode -/

theorem decodeN_of_zero {w : Word} (i : Instr) (h : w.toNat / 256 = 0) : decodeN w i = .ok i := by
  rw [decodeN, field_8_24_eq, if_pos h]

theorem decodeN_of_reserved {w : Word} (i : Instr) (h : w.toNat / 256 ≠ 0) : decodeN w i = .error .reservedBits := by
  rw [decodeN, field_8_24_eq, if_neg h]

theorem decodeHalf_of_zero {w : Word} (i : Instr) (h : w.toNat / 65536 = 0) : decodeHalf w i = .ok i := by
  rw [decodeHalf, field_16_16_eq, if_pos h]

theorem decodeHalf_of_reserved {w : Word} (i : Instr) (h : w.toNat / 65536 ≠ 0) :
    decodeHalf w i = .error .reservedBits := by
  rw [decodeHalf, field_16_16_eq, if_neg h]

/-- The four opcodes of format N. -/
theorem decode_formatN {w : Word} {i : Instr} {op : Nat}
    (hi : op = 0x10 ∧ i = .i8tou8 ∨ op = 0x11 ∧ i = .u8toi8 ∨ op = 0x12 ∧ i = .i16toi8 ∨ op = 0x13 ∧ i = .i8toi16)
    (ho : w.toNat % 256 = op) : decode w = decodeN w i := by
  rcases hi with ⟨rfl, rfl⟩ | ⟨rfl, rfl⟩ | ⟨rfl, rfl⟩ | ⟨rfl, rfl⟩ <;> rw [decode, opField_eq, ho] <;> rfl

/-- The one opcode of format T. -/
theorem decode_formatT {w : Word} (ho : w.toNat % 256 = 0x14) :
    decode w = decodeHalf w (.cvt (w.toNat / 256 % 16) (w.toNat / 4096 % 16)) := by
  rw [decode, opField_eq, ho, stypeField_eq, dtypeField_eq]
  rfl

/-- The five opcodes of format P. -/
theorem decode_formatP {w : Word} {mk : Nat → Instr} {op : Nat}
    (hmk : op = 0x20 ∧ mk = .getbp ∨ op = 0x21 ∧ mk = .setbp ∨ op = 0x22 ∧ mk = .setbpp ∨ op = 0x30 ∧ mk = .fenc ∨
      op = 0x31 ∧ mk = .fdec)
    (ho : w.toNat % 256 = op) : decode w = decodeHalf w (mk (w.toNat / 256 % 256)) := by
  rcases hmk with ⟨rfl, rfl⟩ | ⟨rfl, rfl⟩ | ⟨rfl, rfl⟩ | ⟨rfl, rfl⟩ | ⟨rfl, rfl⟩ <;>
    rw [decode, opField_eq, ho, planeField_eq] <;> rfl

/-- Every other opcode. -/
theorem decode_unlisted {w : Word}
    (ho : w.toNat % 256 ∉ [0x10, 0x11, 0x12, 0x13, 0x14, 0x20, 0x21, 0x22, 0x30, 0x31]) :
    decode w = .error .unlistedOpcode := by
  simp only [List.mem_cons, List.not_mem_nil, or_false, not_or] at ho
  simp only [decode, opField_eq, ho, if_false]

/-- A format-N opcode with a bit of 31:8 set. -/
theorem decode_formatN_reserved {w : Word} (hr : w.toNat / 256 ≠ 0)
    (ho : w.toNat % 256 ∈ [0x10, 0x11, 0x12, 0x13]) : decode w = .error .reservedBits := by
  simp only [List.mem_cons, List.not_mem_nil, or_false] at ho
  obtain ⟨i, h⟩ : ∃ i, decode w = decodeN w i := by
    rcases ho with ho | ho | ho | ho
    · exact ⟨_, decode_formatN (i := .i8tou8) (by simp) ho⟩
    · exact ⟨_, decode_formatN (i := .u8toi8) (by simp) ho⟩
    · exact ⟨_, decode_formatN (i := .i16toi8) (by simp) ho⟩
    · exact ⟨_, decode_formatN (i := .i8toi16) (by simp) ho⟩
  exact h.trans (decodeN_of_reserved i hr)

/-- A format-T or format-P opcode with a bit of 31:16 set. -/
theorem decode_half_reserved {w : Word} (hr : w.toNat / 65536 ≠ 0)
    (ho : w.toNat % 256 ∈ [0x14, 0x20, 0x21, 0x22, 0x30, 0x31]) : decode w = .error .reservedBits := by
  simp only [List.mem_cons, List.not_mem_nil, or_false] at ho
  obtain ⟨i, h⟩ : ∃ i, decode w = decodeHalf w i := by
    rcases ho with ho | ho | ho | ho | ho | ho
    · exact ⟨_, decode_formatT ho⟩
    · exact ⟨_, decode_formatP (mk := .getbp) (by simp) ho⟩
    · exact ⟨_, decode_formatP (mk := .setbp) (by simp) ho⟩
    · exact ⟨_, decode_formatP (mk := .setbpp) (by simp) ho⟩
    · exact ⟨_, decode_formatP (mk := .fenc) (by simp) ho⟩
    · exact ⟨_, decode_formatP (mk := .fdec) (by simp) ho⟩
  exact h.trans (decodeHalf_of_reserved i hr)

end Sys2Proof

namespace Sys2Proof.Machine

/-! ### The engine's turn, by the decoded word -/

/-- An illegal word raises ILLEGAL_CMD when the engine's turn comes (30_encoding.md R79). -/
theorem step_of_illegal {s : State} {e : Illegal} (hm : s.mover = .engine) (h : decode s.lastCmd = .error e) :
    step s = .next (s.takeTurn.raise .illegalCmd) := by
  rw [step_of_engine hm, engineStep, State.takeTurn_lastCmd, h]

/-- A command runs when the engine's turn comes. -/
theorem step_of_command {s : State} {i : Instr} (hm : s.mover = .engine) (h : decode s.lastCmd = .ok i) :
    step s = exec i s.takeTurn := by
  rw [step_of_engine hm, engineStep, State.takeTurn_lastCmd, h]

/-- Settles O7: the decoder by the opcode, format by format, and the engine's step on what it answers. -/
theorem decoderFollowsTheOpcodeMap : Obligations.DecoderFollowsTheOpcodeMap := by
  unfold Obligations.DecoderFollowsTheOpcodeMap
  constructor
  · intro w
    refine ⟨fun hz => ?_, fun hr ho => ⟨_, decode_formatN_reserved hr ho⟩, fun hz => ?_,
      fun hr ho => ⟨_, decode_half_reserved hr ho⟩, fun ho => ⟨_, decode_unlisted ho⟩⟩
    · have bare {i : Instr} (h : decode w = decodeN w i) : decode w = .ok i := h.trans (decodeN_of_zero i hz)
      exact ⟨fun ho => bare (decode_formatN (by simp) ho), fun ho => bare (decode_formatN (by simp) ho),
        fun ho => bare (decode_formatN (by simp) ho), fun ho => bare (decode_formatN (by simp) ho)⟩
    · have half {i : Instr} (h : decode w = decodeHalf w i) : decode w = .ok i := h.trans (decodeHalf_of_zero i hz)
      exact ⟨fun ho => half (decode_formatT ho), fun ho => half (decode_formatP (by simp) ho),
        fun ho => half (decode_formatP (by simp) ho), fun ho => half (decode_formatP (by simp) ho),
        fun ho => half (decode_formatP (by simp) ho), fun ho => half (decode_formatP (by simp) ho)⟩
  · intro s hm
    exact ⟨fun e h => ⟨_, step_of_illegal hm h, State.raise_failed _ _⟩, fun i h => step_of_command hm h⟩

end Sys2Proof.Machine

namespace Sys2Proof.Machine

/-! ### Lines, by the mnemonic -/

/-- A mnemonic in any case is a word: not empty, and without a space. -/
theorem mnemonic_word {name low : List Char} (hname : name.map Char.toLower = low)
    (hlow : low ≠ [] ∧ low.all (fun c => !asmSpace c) = true) : name ≠ [] ∧ ∀ c ∈ name, asmSpace c = false := by
  refine ⟨?_, not_space_of_lower hname hlow.2⟩
  rintro rfl
  exact hlow.1 hname.symm

/-- The parts of a line of a mnemonic and operands that end without a space. -/
theorem mnemonic_parts {name low rest : List Char} (hname : name.map Char.toLower = low)
    (hlow : low ≠ [] ∧ low.all (fun c => !asmSpace c) = true) (hne : rest ≠ [])
    (hlast : asmSpace (rest.getLast hne) = false) :
    (asmTrim (name ++ ' ' :: rest)).takeWhile (fun c => !asmSpace c) = name ∧
      (asmTrim (name ++ ' ' :: rest)).dropWhile (fun c => !asmSpace c) = ' ' :: rest := by
  obtain ⟨hn, hspace⟩ := mnemonic_word hname hlow
  exact line_parts hspace (asmTrim_line hn hspace hne hlast)

/-- A format-N mnemonic alone. -/
theorem assemble_bare {name low : List Char} {i : Instr} (hname : name.map Char.toLower = low)
    (hi : low = "i8tou8".toList ∧ i = .i8tou8 ∨ low = "u8toi8".toList ∧ i = .u8toi8 ∨
      low = "i16toi8".toList ∧ i = .i16toi8 ∨ low = "i8toi16".toList ∧ i = .i8toi16) : assemble name = .ok i := by
  have hlow : low ≠ [] ∧ low.all (fun c => !asmSpace c) = true := by
    rcases hi with ⟨rfl, -⟩ | ⟨rfl, -⟩ | ⟨rfl, -⟩ | ⟨rfl, -⟩ <;> decide
  obtain ⟨hn, hspace⟩ := mnemonic_word hname hlow
  obtain ⟨hword, hrest⟩ := bare_parts hn hspace
  rw [assemble, hword, hrest, hname, asmOperands_nil]
  rcases hi with ⟨rfl, rfl⟩ | ⟨rfl, rfl⟩ | ⟨rfl, rfl⟩ | ⟨rfl, rfl⟩ <;> rfl

/-- A format-P mnemonic and one operand. -/
theorem assemble_plane {name low text : List Char} {mk : Nat → Instr} (hname : name.map Char.toLower = low)
    (hmk : low = "getbp".toList ∧ mk = .getbp ∨ low = "setbp".toList ∧ mk = .setbp ∨
      low = "setbpp".toList ∧ mk = .setbpp ∨ low = "fenc".toList ∧ mk = .fenc ∨ low = "fdec".toList ∧ mk = .fdec)
    (hne : text ≠ []) (htext : ∀ c ∈ text, asmPlain c = true) :
    assemble (name ++ ' ' :: text) = asmPlane [text] mk := by
  have hlow : low ≠ [] ∧ low.all (fun c => !asmSpace c) = true := by
    rcases hmk with ⟨rfl, -⟩ | ⟨rfl, -⟩ | ⟨rfl, -⟩ | ⟨rfl, -⟩ | ⟨rfl, -⟩ <;> decide
  obtain ⟨hword, hrest⟩ := mnemonic_parts hname hlow hne (not_space_of_plain (htext _ (List.getLast_mem hne)))
  rw [assemble, hword, hrest, hname, asmOperands_one hne htext]
  rcases hmk with ⟨rfl, rfl⟩ | ⟨rfl, rfl⟩ | ⟨rfl, rfl⟩ | ⟨rfl, rfl⟩ | ⟨rfl, rfl⟩ <;> rfl

/-- `CVT` and two operands. -/
theorem assemble_cvt {name source target : List Char} (hname : name.map Char.toLower = "cvt".toList)
    (hs : source ≠ []) (hsource : ∀ c ∈ source, asmPlain c = true) (ht : target ≠ [])
    (htarget : ∀ c ∈ target, asmPlain c = true) :
    assemble (name ++ ' ' :: (source ++ ',' :: ' ' :: target)) = asmCvt [source, target] := by
  have hlast : asmSpace ((source ++ ',' :: ' ' :: target).getLast (by simp)) = false := by
    rw [List.getLast_append_of_ne_nil _ (by simp), List.getLast_cons (by simp), List.getLast_cons ht]
    exact not_space_of_plain (htarget _ (List.getLast_mem ht))
  obtain ⟨hword, hrest⟩ := mnemonic_parts hname (by decide) (by simp) hlast
  rw [assemble, hword, hrest, hname, asmOperands_two hs hsource ht htarget]
  rfl

/-! ### Operands that fit, and operands that do not -/

theorem asmPlane_of_number {text : List Char} {n : Nat} (mk : Nat → Instr) (h : asmNumber text = some n) :
    asmPlane [text] mk = if n < 256 then .ok (mk n) else .error .doesNotFit := by
  simp [asmPlane, h, planeFits]

theorem asmCvt_of_types {source target : List Char} {st dt : Nat} (hs : asmType source = .ok st)
    (ht : asmType target = .ok dt) : asmCvt [source, target] = .ok (.cvt st dt) := by
  rw [asmCvt, hs, ht]

/-- A conversion is refused with the refusal of either operand. -/
theorem asmCvt_of_refused {source target : List Char} {e : AsmError}
    (h : asmType source = .error e ∨ asmType target = .error e) : ∃ e', asmCvt [source, target] = .error e' := by
  rw [asmCvt]
  rcases h with h | h
  · exact ⟨e, by rw [h]⟩
  · cases hs : asmType source with
    | error e' => exact ⟨e', rfl⟩
    | ok st => exact ⟨e, by rw [h]⟩

/-! ### Whatever is accepted fits its fields -/

/-- What the assembler answers, if it is a command, is a well-formed one. -/
def AsmFits (r : Except AsmError Instr) : Prop := ∀ i, r = .ok i → i.wellFormed = true

theorem AsmFits.of_ok {i : Instr} (h : i.wellFormed = true) : AsmFits (.ok i) := by
  rintro _ ⟨⟩
  exact h

theorem AsmFits.of_error (e : AsmError) : AsmFits (.error e) := nofun

theorem AsmFits.ite {c : Prop} [Decidable c] {a b : Except AsmError Instr} (ha : AsmFits a) (hb : AsmFits b) :
    AsmFits (if c then a else b) := by
  split
  · exact ha
  · exact hb

theorem asmBare_fits {i : Instr} (ops : List (List Char)) (h : i.wellFormed = true) : AsmFits (asmBare ops i) := by
  unfold asmBare
  split
  · exact .of_ok h
  · exact .of_error _

theorem asmPlane_fits {mk : Nat → Instr} (ops : List (List Char)) (h : ∀ n, (mk n).wellFormed = planeFits n) :
    AsmFits (asmPlane ops mk) := by
  unfold asmPlane
  split
  · split
    · split
      · next hn => exact .of_ok ((h _).trans hn)
      · exact .of_error _
    · exact .of_error _
  · exact .of_error _

/-- The three named types have the codes 0 to 2. -/
theorem asmTypeName_fits {text : List Char} {code : Nat} (h : asmTypeName text = some code) :
    typeCodeFits code = true := by
  unfold asmTypeName at h
  rcases ite_eq_cases h with ⟨-, h⟩ | ⟨-, h⟩
  · cases h; rfl
  rcases ite_eq_cases h with ⟨-, h⟩ | ⟨-, h⟩
  · cases h; rfl
  rcases ite_eq_cases h with ⟨-, h⟩ | ⟨-, h⟩
  · cases h; rfl
  cases h

theorem asmType_fits {text : List Char} {code : Nat} (h : asmType text = .ok code) : typeCodeFits code = true := by
  unfold asmType at h
  split at h
  · next hname =>
    cases h
    exact asmTypeName_fits hname
  · split at h
    · split at h
      · rcases ite_eq_cases h with ⟨hfits, h⟩ | ⟨-, h⟩
        · cases h
          exact hfits
        · cases h
      · cases h
    · cases h

theorem asmCvt_fits (ops : List (List Char)) : AsmFits (asmCvt ops) := by
  unfold asmCvt
  split
  · split
    · next hs ht => exact .of_ok (by rw [Instr.wellFormed, asmType_fits hs, asmType_fits ht]; rfl)
    · exact .of_error _
    · exact .of_error _
  · exact .of_error _

theorem asmCopy_fits (ops : List (List Char)) : AsmFits (asmCopy ops) := by
  unfold asmCopy
  split
  · split
    · next hname => exact .of_ok (by rw [Instr.wellFormed, asmTypeName_fits hname]; rfl)
    · exact .of_error _
  · exact .of_error _

/-- The assembler, mnemonic by mnemonic in the order of its table. -/
theorem assemble_fits (line : List Char) : AsmFits (assemble line) := by
  unfold assemble
  exact
    .ite (asmBare_fits _ rfl) <| .ite (asmBare_fits _ rfl) <| .ite (asmBare_fits _ rfl) <| .ite (asmBare_fits _ rfl) <|
    .ite (asmCvt_fits _) <|
    .ite (asmPlane_fits _ fun _ => rfl) <| .ite (asmPlane_fits _ fun _ => rfl) <|
    .ite (asmPlane_fits _ fun _ => rfl) <| .ite (asmPlane_fits _ fun _ => rfl) <|
    .ite (asmPlane_fits _ fun _ => rfl) <|
    .ite (asmBare_fits _ rfl) <| .ite (asmBare_fits _ rfl) <| .ite (asmCopy_fits _) <|
    .ite (asmBare_fits _ rfl) <| .ite (asmBare_fits _ rfl) <| .ite (asmBare_fits _ rfl) <|
    .of_error _

/-- Settles O10: a line's mnemonic picks the reading of its operands, which takes exactly the numbers that fit. -/
theorem assemblerAcceptsExactlyWhatFits : Obligations.AssemblerAcceptsExactlyWhatFits := by
  unfold Obligations.AssemblerAcceptsExactlyWhatFits
  refine ⟨fun name i h => ?_, fun name text mk n h hnum => ?_, fun name source target st dt hname hs ht => ?_,
    fun line i h => assemble_fits line i h⟩
  · rcases h with ⟨hname, rfl⟩ | ⟨hname, rfl⟩ | ⟨hname, rfl⟩ | ⟨hname, rfl⟩ <;> exact assemble_bare hname (by simp)
  · obtain ⟨hn, hne, htext⟩ := asmNumber_numeral hnum
    have line : assemble (name ++ ' ' :: text) = if n < 256 then .ok (mk n) else .error .doesNotFit :=
      (assemble_plane rfl h hne htext).trans (asmPlane_of_number mk hn)
    rw [line]
    constructor
    · intro hle
      exact if_pos (by omega)
    · intro hgt
      exact ⟨_, if_neg (by omega)⟩
  · obtain ⟨hst, hsne, hsource⟩ := asmType_typeText hs
    obtain ⟨hdt, htne, htarget⟩ := asmType_typeText ht
    rw [assemble_cvt hname hsne hsource htne htarget]
    constructor
    · rintro ⟨hsle, htle⟩
      exact asmCvt_of_types (hst.trans (if_pos (by omega))) (hdt.trans (if_pos (by omega)))
    · rintro (hgt | hgt)
      · exact asmCvt_of_refused (.inl (hst.trans (if_neg (by omega))))
      · exact asmCvt_of_refused (.inr (hdt.trans (if_neg (by omega))))

/-- Settles O9: each row of 30_encoding.md R82 is computed. -/
theorem pseudoInstructionsExpandToTheirWords : Obligations.PseudoInstructionsExpandToTheirWords := by
  unfold Obligations.PseudoInstructionsExpandToTheirWords
  decide

end Sys2Proof.Machine

/-! SUPPORT. The sample-width commands (40_sample_width.md R104 to R108): the reserved bits of a word, a halfword as a
number, and the rows of CVT's table. -/

namespace Sys2Proof.Machine

/-! ### Words with a reserved bit set -/

theorem reservedBitsRaise_formatN {op : Nat} (hop : op ∈ [0x10, 0x11, 0x12, 0x13]) : ReservedBitsRaise op 256 := by
  rintro s hm rfl hr
  exact ⟨_, step_of_illegal hm (decode_formatN_reserved hr hop), State.raise_failed _ _⟩

theorem reservedBitsRaise_half {op : Nat} (hop : op ∈ [0x14, 0x20, 0x21, 0x22, 0x30, 0x31]) :
    ReservedBitsRaise op 65536 := by
  rintro s hm rfl hr
  exact ⟨_, step_of_illegal hm (decode_half_reserved hr hop), State.raise_failed _ _⟩

theorem decode_cvt_word {st dt : Nat} (hs : st < 16) (hd : dt < 16) :
    decode (BitVec.ofNat 32 (4096 * dt + 256 * st + 0x14)) = .ok (.cvt st dt) := by
  have hw : (BitVec.ofNat 32 (4096 * dt + 256 * st + 0x14)).toNat = 4096 * dt + 256 * st + 0x14 := by
    rw [BitVec.toNat_ofNat]
    omega
  rw [decode_formatT (by omega), decodeHalf_of_zero _ (by omega), hw,
    show (4096 * dt + 256 * st + 0x14) / 256 % 16 = st by omega,
    show (4096 * dt + 256 * st + 0x14) / 4096 % 16 = dt by omega]

/-! ### Halfwords as numbers -/

theorem State.toNat_memRead_two (s : State) (a : Nat) :
    (s.memRead a 2).toNat = (s.byteAt (a + 1)).toNat * 256 + (s.byteAt a).toNat := by
  have hlo := (s.byteAt a).isLt
  have hhi := (s.byteAt (a + 1)).isLt
  rw [State.memRead_two, BitVec.toNat_or, BitVec.toNat_shiftLeft, BitVec.toNat_setWidth, BitVec.toNat_setWidth,
    Nat.mod_eq_of_lt (by omega), Nat.mod_eq_of_lt (by omega), Nat.shiftLeft_eq, Nat.mod_eq_of_lt (by omega), Nat.or_comm,
    ← Nat.shiftLeft_eq, ← Nat.shiftLeft_add_eq_or_of_lt hlo, Nat.shiftLeft_eq]

/-- Each halfword of splitHalfwords without a byte map, high byte first, in numbers (R106). -/
theorem State.splitHalfwords_numbers {s : State} (h : InRange s s.src (2 * s.count) ∧ InRange s s.dst (2 * s.count))
    {j : Nat} (hj : j < s.count) :
    ((s.splitHalfwords id).byteAt (s.dst + 2 * j)).toNat = (s.memRead (s.src + 2 * j) 2).toNat / 256 ∧
      ((s.splitHalfwords id).byteAt (s.dst + (2 * j + 1))).toNat = (s.memRead (s.src + 2 * j) 2).toNat % 256 := by
  obtain ⟨hfirst, hsecond⟩ := (State.splitHalfwords_completed id h).2 j hj
  have hlo := (s.byteAt (s.src + 2 * j)).isLt
  rw [hfirst, hsecond, State.toNat_memRead_two, Nat.add_assoc, id, id]
  omega

/-- Each halfword of joinBytes in numbers (R107, R108). -/
theorem State.joinBytes_number {s : State} (g : Byte → Byte)
    (h : InRange s s.src s.count ∧ InRange s s.dst (2 * (s.count / 2))) {j : Nat} (hj : j < s.count / 2) :
    ((s.joinBytes g).memRead (s.dst + 2 * j) 2).toNat =
      (g (s.byteAt (s.src + 2 * j))).toNat * 256 + (g (s.byteAt (s.src + (2 * j + 1)))).toNat := by
  obtain ⟨hlow, hhigh⟩ := (State.joinBytes_completed g h).2 j hj
  rw [State.toNat_memRead_two, Nat.add_assoc, hlow, hhigh]

/-! ### The rows of CVT's table -/

/-- A command whose run is `u` ends as `u` does, whether its regions are in range or not. -/
theorem next_of_regions {o : Outcome} {u : State} {inside : Prop} {Done Fails : State → Prop} (h : o = .next u)
    (hdone : inside → Done u) (hfails : ¬inside → Fails u) :
    (inside → ∃ t, o = .next t ∧ Done t) ∧ (¬inside → ∃ t, o = .next t ∧ Fails t) :=
  ⟨fun hin => ⟨u, h, hdone hin⟩, fun hout => ⟨u, h, hfails hout⟩⟩

theorem sampleType?_eq_none {code : Nat} (h : 2 < code) : sampleType? code = none := by
  rw [sampleType?, if_neg (by omega), if_neg (by omega), if_neg (by omega)]

theorem exec_cvt_unsupported {st dt : Nat} (h : 2 < st ∨ 2 < dt) (s : State) :
    exec (.cvt st dt) s = .next (s.raise .unsupportedType) := by
  rw [exec, execCvt]
  rcases h with h | h
  · rw [sampleType?_eq_none h]
  · rw [sampleType?_eq_none h]
    cases sampleType? st <;> rfl

/-- The rows between int16 and a byte type: split and join under that type's byte map, the identity for int8 and flip
for uint8. -/
theorem exec_cvt_int16 {c : Nat} {x : Byte} (h : (c = 0 ∧ x = 0) ∨ (c = 1 ∧ x = 0x80)) (s : State) :
    ∃ g : Byte → Byte, (∀ b, g b = b ^^^ x) ∧ exec (.cvt 2 c) s = .next (s.splitHalfwords g) ∧
      exec (.cvt c 2) s = .next (s.joinBytes g) := by
  rcases h with ⟨rfl, rfl⟩ | ⟨rfl, rfl⟩
  · exact ⟨id, fun _ => BitVec.xor_zero.symm, rfl, rfl⟩
  · exact ⟨flip, fun _ => rfl, rfl, rfl⟩

/-- One byte type to itself: the bytes mapped by the identity. -/
theorem exec_cvt_byte_copy {c : Nat} (h : c = 0 ∨ c = 1) (s : State) : exec (.cvt c c) s = .next (s.mapBytes id) := by
  rcases h with rfl | rfl <;> rfl

/-- Between int8 and uint8: every byte flipped. -/
theorem exec_cvt_sign_change {c d : Nat} (h : (c = 0 ∧ d = 1) ∨ (c = 1 ∧ d = 0)) (s : State) :
    exec (.cvt c d) s = .next (s.mapBytes flip) := by
  rcases h with ⟨rfl, rfl⟩ | ⟨rfl, rfl⟩ <;> rfl

/-! ### The statements -/

/-- Settles O28: a format-N command that maps every byte by flip. -/
theorem i8toU8FlipsEachByte : Obligations.I8toU8FlipsEachByte :=
  ⟨by decide, reservedBitsRaise_formatN (by decide), fun _ =>
    next_of_regions rfl (State.mapBytes_completed flip) (State.mapBytes_failed flip)⟩

/-- Settles O29: as I8TOU8, under the next opcode. -/
theorem u8toI8FlipsEachByte : Obligations.U8toI8FlipsEachByte :=
  ⟨by decide, reservedBitsRaise_formatN (by decide), fun _ =>
    next_of_regions rfl (State.mapBytes_completed flip) (State.mapBytes_failed flip)⟩

/-- Settles O30: the bytes of splitHalfwords, read as numbers. -/
theorem i16toI8SplitsHighByteFirst : Obligations.I16toI8SplitsHighByteFirst :=
  ⟨by decide, reservedBitsRaise_formatN (by decide), fun _ =>
    next_of_regions rfl
      (fun h => ⟨(State.splitHalfwords_completed id h).1, fun _ hj => State.splitHalfwords_numbers h hj⟩)
      (State.splitHalfwords_failed id)⟩

/-- Settles O31: the halfwords of joinBytes, read as numbers. -/
theorem i8toI16JoinsBytePairs : Obligations.I8toI16JoinsBytePairs :=
  ⟨by decide, reservedBitsRaise_formatN (by decide), fun _ =>
    next_of_regions rfl
      (fun h => ⟨(State.joinBytes_completed id h).1, fun _ hj => State.joinBytes_number id h hj⟩)
      (State.joinBytes_failed id)⟩

/-- Settles O32: the word, the type check, and the table row by row, each by the operation it runs. -/
theorem cvtConvertsByTheTable : Obligations.CvtConvertsByTheTable := by
  unfold Obligations.CvtConvertsByTheTable
  refine ⟨fun st dt => decode_cvt_word, reservedBitsRaise_half (by decide), fun s st dt h => ?unsupported,
    fun s c hc => ?byteCopy, fun s => ?halfwordCopy, fun s c d hcd => ?signChange, fun s d x hd => ?narrowing,
    fun s c x hc => ?widening⟩
  case unsupported => exact ⟨_, exec_cvt_unsupported h s, State.raise_failed s _⟩
  case byteCopy =>
    exact next_of_regions (exec_cvt_byte_copy hc s) (State.mapBytes_completed id) (State.mapBytes_failed id)
  case halfwordCopy => exact next_of_regions rfl State.copyHalfwords_completed State.copyHalfwords_failed
  case signChange =>
    exact next_of_regions (exec_cvt_sign_change hcd s) (State.mapBytes_completed flip) (State.mapBytes_failed flip)
  case narrowing =>
    obtain ⟨g, hg, hrun, -⟩ := exec_cvt_int16 hd s
    simp only [← hg]
    exact next_of_regions hrun (State.splitHalfwords_completed g) (State.splitHalfwords_failed g)
  case widening =>
    obtain ⟨g, hg, -, hrun⟩ := exec_cvt_int16 hc s
    simp only [← hg]
    exact next_of_regions hrun
      (fun h => ⟨(State.joinBytes_completed g h).1, fun _ hj => State.joinBytes_number g h hj⟩)
      (State.joinBytes_failed g)

end Sys2Proof.Machine

/-! SUPPORT. The bit-plane commands (41_bitplane.md R131 to R133): the words of format P, the ends a command with the
plane check can have, and the elements that a row of pixels leaves in RAM. -/

namespace Sys2Proof.Machine

/-! ### The words of format P -/

/-- The word of a format-P command: the opcode below the plane (30_encoding.md R71). -/
theorem decode_plane_word {mk : Nat → Instr} {op p : Nat}
    (hmk : op = 0x20 ∧ mk = .getbp ∨ op = 0x21 ∧ mk = .setbp ∨ op = 0x22 ∧ mk = .setbpp ∨ op = 0x30 ∧ mk = .fenc ∨
      op = 0x31 ∧ mk = .fdec)
    (hp : p < 256) : decode (BitVec.ofNat 32 (256 * p + op)) = .ok (mk p) := by
  have hop : op < 256 := by omega
  have hw : (BitVec.ofNat 32 (256 * p + op)).toNat = 256 * p + op := by
    rw [BitVec.toNat_ofNat]
    omega
  rw [decode_formatP hmk (by omega), decodeHalf_of_zero _ (by omega), hw,
    show (256 * p + op) / 256 % 256 = p by omega]

/-! ### The plane check before the regions (R130) -/

theorem State.withPlane_of_lt {s : State} {plane : Nat} (rest : State) (h : plane < s.pixW) :
    s.withPlane plane rest = rest := by
  rw [State.withPlane_eq, if_pos h]

/-- A command that checks the plane and then runs to `u`: INVALID_PLANE first, else it ends as `u` does. -/
theorem next_of_plane {o : Outcome} {s u : State} {p : Nat} {inside : Prop} {Done Fails : State → Prop}
    (h : o = .next (s.withPlane p u)) (hdone : p < s.pixW → inside → Done u) (hfails : ¬inside → Fails u) :
    (s.pixW ≤ p → ∃ t, o = .next t ∧ Failed s t .invalidPlane) ∧
      (p < s.pixW →
        (inside → ∃ t, o = .next t ∧ Done t) ∧ (¬inside → ∃ t, o = .next t ∧ Fails t)) :=
  ⟨fun hp => ⟨_, h, State.withPlane_failed hp⟩, fun hp =>
    next_of_regions (h.trans (congrArg _ (State.withPlane_of_lt u hp))) (hdone hp) hfails⟩

/-! ### A row of pixels -/

/-- A delivered row of COUNT pixels holds the low PIX_W bits of each lane. -/
theorem State.deliver_pixels {s : State} {regions : List (Nat × Nat)} {lane : Nat → Word} {n : Nat} {t : Bool}
    (h : s.allInRange regions = true) {i b : Nat} (hi : i < s.count) (hb : b < s.pixW) :
    ((s.deliver regions s.pixB s.count lane n t).memRead (s.dst + i * s.pixB) s.pixB).getLsbD b =
      (lane i).getLsbD b := by
  rw [State.getLsbD_memRead_of_lanes (State.deliver_completed h).2 i hi, ← State.pixW_eq, decide_eq_true hb,
    Bool.true_and]

/-- Lanes that fit in PIX_W bits are read back whole. -/
theorem State.deliver_pixels_whole {s : State} {regions : List (Nat × Nat)} {lane : Nat → Word} {n : Nat} {t : Bool}
    (h : s.allInRange regions = true) {i : Nat} (hi : i < s.count) (hfits : (lane i).toNat < 2 ^ s.pixW) :
    (s.deliver regions s.pixB s.count lane n t).memRead (s.dst + i * s.pixB) s.pixB = lane i := by
  rw [State.pixW_eq] at hfits
  exact State.memRead_of_bytes (fun j hj => (State.deliver_completed h).2 i j hi hj) hfits

/-! ### The elements -/

theorem toNat_bit (v : Word) (p : Nat) : (bit v p).toNat = v.toNat / 2 ^ p % 2 := by
  simp [bit, Nat.shiftRight_eq_div_pow, Nat.and_one_is_mod]

/-- A bit fits in every pixel. -/
theorem State.toNat_bit_lt (s : State) (v : Word) (p : Nat) : (bit v p).toNat < 2 ^ s.pixW := by
  calc (bit v p).toNat < 2 ^ 1 := by rw [toNat_bit]; omega
    _ ≤ 2 ^ s.pixW := Nat.pow_le_pow_right (by decide) (by have := s.pixB_pos; rw [State.pixW_eq]; omega)

/-- SETBPP's element: SETBP's before CHANGED, the source's from there on. -/
theorem State.getLsbD_leadingPlaneWritten {s : State} {p i : Nat} (b : Nat) (hp : p < s.pixW) (hi : i < s.count) :
    (if i < min s.changed s.count then s.planeWritten p i else s.elem s.src i s.pixB).getLsbD b =
      if b = p ∧ i < s.changed then decide (s.memRead (s.val + i * s.pixB) s.pixB ≠ 0)
      else (s.memRead (s.src + i * s.pixB) s.pixB).getLsbD b := by
  by_cases hc : i < s.changed
  · rw [if_pos (by omega), State.getLsbD_planeWritten s p i b hp]
    simp only [hc, and_true]
  · rw [if_neg (by omega), if_neg (by omega)]
    rfl

/-! ### The statements -/

/-- Settles O42: each lane is a bit, which fits in its element and is read back whole. -/
theorem getbpReadsThePlane : Obligations.GetbpReadsThePlane := by
  unfold Obligations.GetbpReadsThePlane
  refine ⟨fun p => decode_plane_word (by simp), reservedBitsRaise_half (by decide), fun s p =>
    next_of_plane rfl (fun _ h => ?_) fun h => State.deliver_failed (mt State.allInRange_two.mp h)⟩
  have hall := State.allInRange_two.mpr h
  exact ⟨(State.deliver_completed hall).1, fun i hi =>
    (congrArg _ (State.deliver_pixels_whole hall hi (s.toNat_bit_lt _ p))).trans (toNat_bit _ p)⟩

/-- Settles O43: each lane is planeWritten, bit by bit. -/
theorem setbpWritesThePlane : Obligations.SetbpWritesThePlane := by
  unfold Obligations.SetbpWritesThePlane
  refine ⟨fun p => decode_plane_word (by simp), reservedBitsRaise_half (by decide), fun s p =>
    next_of_plane rfl (fun hp h => ?_) fun h => State.deliver_failed (mt State.allInRange_three.mp h)⟩
  have hall := State.allInRange_three.mpr h
  exact ⟨(State.deliver_completed hall).1, fun i b hi hb =>
    (State.deliver_pixels hall hi hb).trans (State.getLsbD_planeWritten s p i b hp)⟩

/-- Settles O44: as SETBP, each lane split at CHANGED. -/
theorem setbppWritesTheLeadingElements : Obligations.SetbppWritesTheLeadingElements := by
  unfold Obligations.SetbppWritesTheLeadingElements
  refine ⟨fun p => decode_plane_word (by simp), reservedBitsRaise_half (by decide), fun s p =>
    next_of_plane rfl (fun hp h => ?_) fun h => State.deliver_failed (mt State.allInRange_three.mp h)⟩
  have hall := State.allInRange_three.mpr h
  exact ⟨(State.deliver_completed hall).1, fun i b hi hb =>
    (State.deliver_pixels hall hi hb).trans (State.getLsbD_leadingPlaneWritten b hp hi)⟩

end Sys2Proof.Machine

/-! SUPPORT. The frame commands (42_framecodec.md R153, R155): the ends a command with the plane and shape checks can
have, the elements FENC embeds into, and the bytes FDEC packs. -/

namespace Sys2Proof.Machine

/-! ### The plane and shape checks before the regions (R150) -/

theorem State.withFrame_of_bad_plane {s : State} {p : Nat} (u : State) (hp : s.pixW ≤ p) :
    s.withFrame p u = s.raise .invalidPlane := by
  rw [State.withFrame_eq, if_neg (Nat.not_lt.mpr hp)]

theorem State.withFrame_of_bad_shape {s : State} {p : Nat} (u : State) (hp : p < s.pixW)
    (hshape : s.channels = 0 ∨ s.count % s.channels ≠ 0) : s.withFrame p u = s.raise .shape := by
  rw [State.withFrame_eq, if_pos hp, if_neg (by omega)]

theorem State.withFrame_of_ok {s : State} {p : Nat} (u : State) (hp : p < s.pixW) (hc : s.channels ≠ 0)
    (hdvd : s.count % s.channels = 0) : s.withFrame p u = u := by
  rw [State.withFrame_eq, if_pos hp, if_pos ⟨hc, hdvd⟩]

/-- A command that checks the plane, then the shape, and then runs to `u`: INVALID_PLANE first, SHAPE next, else it ends
as `u` does. -/
theorem next_of_frame {o : Outcome} {s u : State} {p : Nat} {inside : Prop} {Done Fails : State → Prop}
    (h : o = .next (s.withFrame p u)) (hdone : p < s.pixW → inside → Done u) (hfails : ¬inside → Fails u) :
    (s.pixW ≤ p → ∃ t, o = .next t ∧ Failed s t .invalidPlane) ∧
      (p < s.pixW →
        (s.channels = 0 ∨ s.count % s.channels ≠ 0 → ∃ t, o = .next t ∧ Failed s t .shape) ∧
        (s.channels ≠ 0 → s.count % s.channels = 0 →
          (inside → ∃ t, o = .next t ∧ Done t) ∧ (¬inside → ∃ t, o = .next t ∧ Fails t))) := by
  refine ⟨fun hp => ?plane, fun hp => ⟨fun hshape => ?shape, fun hc hdvd => ?regions⟩⟩
  case plane => exact ⟨_, h.trans (congrArg _ (State.withFrame_of_bad_plane u hp)), State.raise_failed s _⟩
  case shape => exact ⟨_, h.trans (congrArg _ (State.withFrame_of_bad_shape u hp hshape)), State.raise_failed s _⟩
  case regions =>
    exact next_of_regions (h.trans (congrArg _ (State.withFrame_of_ok u hp hc hdvd))) (hdone hp) hfails

/-! ### The elements FENC embeds into -/

/-- The embedded bits are whole message bytes, as many as both the message and the image hold. -/
theorem State.embeddedBits_div_eight (s : State) : s.embeddedBits / 8 = min s.msgLen (s.count / 8) := by
  rw [State.embeddedBits, capacity]
  omega

/-- FENC's element: bit p is the message's while the embedded bits last, every other bit the source's. -/
theorem State.getLsbD_messageEmbedded {s : State} {p : Nat} (i b : Nat) (hp : p < s.pixW) :
    (if i < s.embeddedBits then setBit (s.elem s.src i s.pixB) p (s.messageBit i)
      else s.elem s.src i s.pixB).getLsbD b =
      if b = p ∧ i < min (8 * s.msgLen) (s.count / 8 * 8) then (s.byteAt (s.val + i / 8)).getLsbD (7 - i % 8)
      else (s.memRead (s.src + i * s.pixB) s.pixB).getLsbD b := by
  have hbits : s.embeddedBits = min (8 * s.msgLen) (s.count / 8 * 8) := rfl
  rw [hbits]
  by_cases hi : i < min (8 * s.msgLen) (s.count / 8 * 8)
  · have hp32 : p < 32 := by have := s.pixW_le; omega
    rw [if_pos hi, State.messageBit_eq, getLsbD_setBit _ _ _ _ hp32]
    simp only [hi, and_true]
    rfl
  · rw [if_neg hi, if_neg (fun h => hi h.2)]
    rfl

/-! ### The bytes FDEC packs -/

/-- A delivered row of bytes holds the low eight bits of each lane. -/
theorem State.deliver_bytes {s : State} {regions : List (Nat × Nat)} {lanes : Nat} {lane : Nat → Word} {n : Nat}
    {t : Bool} (h : s.allInRange regions = true) :
    Completed s (s.deliver regions 1 lanes lane n t) s.dst lanes n t ∧
      ∀ j, j < lanes → (s.deliver regions 1 lanes lane n t).byteAt (s.dst + j) = (lane j).setWidth 8 := by
  obtain ⟨hdone, hbytes⟩ := State.deliver_completed (size := 1) (lanes := lanes) (lane := lane) (n := n) (t := t) h
  rw [Nat.mul_one] at hdone
  exact ⟨hdone, fun j hj => by simpa using hbytes j 0 hj Nat.one_pos⟩

/-- Bit 7 - k of a packed byte is the plane bit of its element k. -/
theorem getLsbD_packBits_plane (e : Nat → Word) (p : Nat) {k : Nat} (hk : k < 8) :
    ((packBits (fun k => bit (e k) p) 8).setWidth 8).getLsbD (7 - k) = (e k).getLsbD p := by
  have hpos : 7 - (7 - k) = k := by omega
  simp only [bit_eq_ite]
  rw [BitVec.getLsbD_setWidth, getLsbD_packBits (fun k => (e k).getLsbD p) 8 (Nat.le_refl 8), hpos]
  simp [hk, show 7 - k < 8 by omega]

/-! ### The statements -/

/-- Settles O49: each lane is the source element with its message bit embedded. -/
theorem fencEmbedsTheMessage : Obligations.FencEmbedsTheMessage := by
  unfold Obligations.FencEmbedsTheMessage
  refine ⟨fun p => decode_plane_word (by simp), reservedBitsRaise_half (by decide), fun s p =>
    next_of_frame rfl (fun hp h => ?_) fun h => State.deliver_failed (mt State.allInRange_three.mp h)⟩
  have hall := State.allInRange_three.mpr h
  rw [← State.embeddedBits_div_eight]
  exact ⟨(State.deliver_completed hall).1, fun i b hi hb =>
    (State.deliver_pixels hall hi hb).trans (State.getLsbD_messageEmbedded i b hp)⟩

/-- Settles O50: each lane is one byte, packed from the plane bits of eight elements. -/
theorem fdecExtractsTheMessage : Obligations.FdecExtractsTheMessage := by
  unfold Obligations.FdecExtractsTheMessage
  refine ⟨fun p => decode_plane_word (by simp), reservedBitsRaise_half (by decide), fun s p =>
    next_of_frame rfl (fun _ h => ?_) fun h => State.deliver_failed (mt State.allInRange_two.mp h)⟩
  obtain ⟨hdone, hbytes⟩ := State.deliver_bytes (State.allInRange_two.mpr h)
  exact ⟨hdone, fun j k hj hk =>
    (congrArg (·.getLsbD (7 - k)) (hbytes j hj)).trans (getLsbD_packBits_plane _ p hk)⟩

end Sys2Proof.Machine

/-! SUPPORT. Reset and the busy hazard (70_reset_and_hazards.md R230, R236): what the CSR port answers after a reset, and
what a host access that needs BUSY = 0 answers while a command is pending. -/

namespace Sys2Proof.Machine

/-! ### The CSRs after a reset (R230) -/

/-- Every field of STATUS is 0 after a reset. -/
theorem Status.toWord_reset : Status.reset.toWord = 0 := by decide

/-- Every register but ID is 0 after a reset. -/
theorem State.csrValue_assertReset (s : State) (c : Csr) :
    s.assertReset.csrValue c = if c = .id then idValue else 0 := by
  cases c with
  | status => exact Status.toWord_reset
  | _ => rfl

/-- ID alone is at offset 0. -/
theorem Csr.offset_eq_zero_iff {c : Csr} : c.offset = 0 ↔ c = .id := by cases c <;> decide

/-- Read by offset: a register holds its reset value, and a reserved offset, which 0 is not, reads 0. -/
theorem State.csrRead_assertReset (s : State) (o : Nat) :
    s.assertReset.csrRead o = if o = 0 then 0x42504331 else 0 := by
  cases hc : csrAt? o with
  | some c =>
    rw [offset_of_csrAt? hc, State.csrRead_offset, State.csrValue_assertReset]
    simp only [Csr.offset_eq_zero_iff, idValue]
  | none =>
    have ho : o ≠ 0 := by
      rintro rfl
      exact absurd hc (by decide)
    rw [if_neg ho, State.csrRead, hc]

/-- The CSRs see neither the RAM nor what surrounds the block, so they read at power-up as after any reset. -/
theorem State.csrRead_reset (o : Nat) : State.reset.csrRead o = State.reset.assertReset.csrRead o := rfl

/-! ### The busy hazard (R236) -/

/-- An access checked first for its form and then for BUSY = 0 is refused while BUSY = 1, well-formed or not. -/
theorem refused_of_busy {ok busy : Bool} (hb : busy = true) (malformed : Refusal) (allowed : Outcome) :
    (if ok then if busy then .refused .busyHazard else allowed else .refused malformed) =
      (.refused (if ok then .busyHazard else malformed) : Outcome) := by
  rw [if_pos hb]
  cases ok with
  | true => rfl
  | false => rfl

/-! ### The statements -/

/-- Settles O1: the host's turn is its reset, after which the registers read their reset values. -/
theorem resetRestoresEveryRegister : Obligations.ResetRestoresEveryRegister := by
  unfold Obligations.ResetRestoresEveryRegister
  refine ⟨fun o => (State.csrRead_reset o).trans (State.csrRead_assertReset _ o), fun s rest hm => ?_⟩
  exact ⟨(s.takeTurn.withScript rest).assertReset, step_of_host hm, State.csrRead_assertReset _, rfl, rfl, rfl⟩

/-- Settles O22: the three accesses share the check of BUSY, which a CSR read does not make. -/
theorem busyHazardIsRefused : Obligations.BusyHazardIsRefused := by
  unfold Obligations.BusyHazardIsRefused
  intro s hb
  refine ⟨fun o n v => ?writeCsr, fun o n => ?readRam, fun o n v => ?writeRam, fun o h4 hle => ?readCsr⟩
  case writeCsr => exact ⟨_, refused_of_busy hb .csrAccess (.next (s.csrWrite o v))⟩
  case readRam => exact ⟨_, refused_of_busy hb .ramAccess (.next (s.reply (s.memRead o n)))⟩
  case writeRam => exact ⟨_, refused_of_busy hb .ramAccess (.next { s with ram := s.ram.writeLE o n v })⟩
  case readCsr => exact ⟨_, hostStep_readCsr s (csrAccessOk_word h4 hle)⟩

end Sys2Proof.Machine

/-! SUPPORT. A command as data: what it delivers or which error it raises, as a function of the operands it reads; and
what every command therefore does and leaves alone. -/

namespace Sys2Proof.Machine

/-! ### What a command delivers -/

/-- What a command gives to State.deliver when its checks before the regions have passed. The destination, the region
checked last, is not part of it. -/
structure Delivery where
  /-- The source regions, in the order of their checks. -/
  sources : List (Nat × Nat)
  /-- The bytes of an output element. -/
  size : Nat
  /-- The number of output elements. -/
  lanes : Nat
  lane : Nat → Word
  /-- RESULT_COUNT. -/
  result : Nat
  trunc : Bool

/-- The end of a command from its plan: an error is raised, a delivery goes to DST_ADDR. -/
def State.finish (s : State) (plan : Except ErrCode Delivery) : State :=
  match plan with
  | .error e => s.raise e
  | .ok d => s.deliver (d.sources ++ [(s.dst, d.lanes * d.size)]) d.size d.lanes d.lane d.result d.trunc

/-- The delivery of State.mapBytes. -/
def State.mapPlan (s : State) (g : Byte → Byte) : Delivery :=
  { sources := [(s.src, s.count)], size := 1, lanes := s.count
    lane := fun i => (g (s.byteSample s.src i)).setWidth 32
    result := s.count, trunc := false }

/-- The delivery of State.copyHalfwords. -/
def State.copyPlan (s : State) : Delivery :=
  { sources := [(s.src, 2 * s.count)], size := 2, lanes := s.count
    lane := fun j => s.elem s.src j 2
    result := s.count, trunc := false }

/-- The delivery of State.splitHalfwords. -/
def State.splitPlan (s : State) (g : Byte → Byte) : Delivery :=
  { sources := [(s.src, 2 * s.count)], size := 1, lanes := 2 * s.count
    lane := fun k =>
      (g (if k % 2 = 0 then highByte (s.elem s.src (k / 2) 2) else lowByte (s.elem s.src (k / 2) 2))).setWidth 32
    result := 2 * s.count, trunc := false }

/-- The delivery of State.joinBytes. -/
def State.joinPlan (s : State) (g : Byte → Byte) : Delivery :=
  { sources := [(s.src, s.count)], size := 2, lanes := s.count / 2
    lane := fun j => (join (g (s.byteSample s.src (2 * j))) (g (s.byteSample s.src (2 * j + 1)))).setWidth 32
    result := s.count / 2, trunc := wideningTrunc s.count }

/-- The delivery of a row of CVT's table. -/
def State.convertPlan (s : State) (source target : SampleType) : Delivery :=
  match source, target with
  | .int8, .int8 => s.mapPlan id
  | .uint8, .uint8 => s.mapPlan id
  | .int16, .int16 => s.copyPlan
  | .int8, .uint8 => s.mapPlan flip
  | .uint8, .int8 => s.mapPlan flip
  | .int16, .int8 => s.splitPlan id
  | .int8, .int16 => s.joinPlan id
  | .int16, .uint8 => s.splitPlan flip
  | .uint8, .int16 => s.joinPlan flip

/-- The delivery of COUNT pixels, `more` being the source regions after the image's own. -/
def State.pixelPlan (s : State) (more : List (Nat × Nat)) (lane : Nat → Word) (result : Nat) (trunc : Bool) :
    Delivery :=
  { sources := (s.src, s.pixelBytes) :: more, size := s.pixB, lanes := s.count, lane, result, trunc }

/-- The delivery of FDEC. -/
def State.extractPlan (s : State) (p : Nat) : Delivery :=
  { sources := [(s.src, s.pixelBytes)], size := 1, lanes := s.count / 8
    lane := fun j => packBits (fun k => bit (s.elem s.src (8 * j + k) s.pixB) p) 8
    result := s.count / 8, trunc := extractTrunc s.count }

/-- The plane check of a plan (41_bitplane.md R130). -/
def State.checkPlane (s : State) (p : Nat) (plan : Except ErrCode Delivery) : Except ErrCode Delivery :=
  if s.planeOk p then plan else .error .invalidPlane

/-- The plane check and then the shape check (42_framecodec.md R150). -/
def State.checkFrame (s : State) (p : Nat) (d : Delivery) : Except ErrCode Delivery :=
  s.checkPlane p (if s.shapeOk then .ok d else .error .shape)

/-- The plan of each command. -/
def commandPlan (i : Instr) (s : State) : Except ErrCode Delivery :=
  match i with
  | .i8tou8 => .ok (s.mapPlan flip)
  | .u8toi8 => .ok (s.mapPlan flip)
  | .i16toi8 => .ok (s.splitPlan id)
  | .i8toi16 => .ok (s.joinPlan id)
  | .cvt stype dtype =>
    match sampleType? stype, sampleType? dtype with
    | some source, some target => .ok (s.convertPlan source target)
    | _, _ => .error .unsupportedType
  | .getbp p =>
    s.checkPlane p (.ok (s.pixelPlan [] (fun i => bit (s.elem s.src i s.pixB) p) s.count false))
  | .setbp p =>
    s.checkPlane p (.ok (s.pixelPlan [(s.val, s.pixelBytes)] (fun i => s.planeWritten p i) s.count false))
  | .setbpp p =>
    s.checkPlane p (.ok (s.pixelPlan [(s.val, s.pixelBytes)]
      (fun i => if i < min s.changed s.count then s.planeWritten p i else s.elem s.src i s.pixB) s.count false))
  | .fenc p =>
    s.checkFrame p (s.pixelPlan [(s.val, s.msgLen)]
      (fun i => if i < s.embeddedBits then setBit (s.elem s.src i s.pixB) p (s.messageBit i)
        else s.elem s.src i s.pixB)
      (s.embeddedBits / 8) (embedTrunc s.msgLen s.count))
  | .fdec p => s.checkFrame p (s.extractPlan p)

/-! ### A command is its plan, finished -/

theorem State.mapBytes_eq_finish (s : State) (g : Byte → Byte) : s.mapBytes g = s.finish (.ok (s.mapPlan g)) := by
  simp [State.mapBytes, State.finish, State.mapPlan]

theorem State.copyHalfwords_eq_finish (s : State) : s.copyHalfwords = s.finish (.ok s.copyPlan) := by
  simp [State.copyHalfwords, State.finish, State.copyPlan, Nat.mul_comm]

theorem State.splitHalfwords_eq_finish (s : State) (g : Byte → Byte) :
    s.splitHalfwords g = s.finish (.ok (s.splitPlan g)) := by
  simp [State.splitHalfwords, State.finish, State.splitPlan]

theorem State.joinBytes_eq_finish (s : State) (g : Byte → Byte) : s.joinBytes g = s.finish (.ok (s.joinPlan g)) := by
  simp [State.joinBytes, State.finish, State.joinPlan, Nat.mul_comm]

theorem State.convert_eq_finish (s : State) (source target : SampleType) :
    s.convert source target = s.finish (.ok (s.convertPlan source target)) := by
  cases source <;> cases target <;>
    simp only [State.convert, State.convertPlan, State.mapBytes_eq_finish, State.copyHalfwords_eq_finish,
      State.splitHalfwords_eq_finish, State.joinBytes_eq_finish]

theorem State.withPlane_finish (s : State) (p : Nat) (plan : Except ErrCode Delivery) :
    s.withPlane p (s.finish plan) = s.finish (s.checkPlane p plan) := by
  unfold State.withPlane State.checkPlane
  split <;> rfl

theorem State.withFrame_finish (s : State) (p : Nat) (d : Delivery) :
    s.withFrame p (s.finish (.ok d)) = s.finish (s.checkFrame p d) := by
  unfold State.withFrame State.checkFrame
  rw [← State.withPlane_finish]
  split <;> rfl

/-- FDEC's destination, one byte a lane. -/
theorem State.finish_extractPlan (s : State) (p : Nat) :
    s.finish (.ok (s.extractPlan p)) =
      s.deliver [(s.src, s.pixelBytes), (s.dst, s.count / 8)] 1 (s.count / 8)
        (fun j => packBits (fun k => bit (s.elem s.src (8 * j + k) s.pixB) p) 8) (s.count / 8)
        (extractTrunc s.count) := by
  simp [State.finish, State.extractPlan]

/-- Every command is the end of its plan: exec, said once for all commands. -/
theorem exec_eq_finish (i : Instr) (s : State) : exec i s = .next (s.finish (commandPlan i s)) := by
  cases i with
  | i8tou8 => exact congrArg _ (s.mapBytes_eq_finish flip)
  | u8toi8 => exact congrArg _ (s.mapBytes_eq_finish flip)
  | i16toi8 => exact congrArg _ (s.splitHalfwords_eq_finish id)
  | i8toi16 => exact congrArg _ (s.joinBytes_eq_finish id)
  | cvt stype dtype =>
    rw [exec, execCvt, commandPlan]
    cases sampleType? stype with
    | none => rfl
    | some source =>
      cases sampleType? dtype with
      | none => rfl
      | some target => exact congrArg _ (s.convert_eq_finish source target)
  | getbp p => rw [commandPlan, ← State.withPlane_finish]; rfl
  | setbp p => rw [commandPlan, ← State.withPlane_finish]; rfl
  | setbpp p => rw [commandPlan, ← State.withPlane_finish]; rfl
  | fenc p => rw [commandPlan, ← State.withFrame_finish]; rfl
  | fdec p => rw [commandPlan, ← State.withFrame_finish, State.finish_extractPlan]; rfl

/-! ### What a plan can be -/

/-- A plan raises only the codes a command may end with, and delivers exactly the destination's bytes. -/
def PlanOk (i : Instr) (s : State) (plan : Except ErrCode Delivery) : Prop :=
  match plan with
  | .error e => e ≠ .none ∧ e ≠ .illegalCmd
  | .ok d => d.lanes * d.size = destBytes i s

theorem PlanOk.checkPlane {i : Instr} {s : State} {plan : Except ErrCode Delivery} (p : Nat) (h : PlanOk i s plan) :
    PlanOk i s (s.checkPlane p plan) := by
  unfold State.checkPlane
  split
  · exact h
  · exact ⟨nofun, nofun⟩

theorem PlanOk.checkFrame {i : Instr} {s : State} {d : Delivery} (p : Nat) (h : PlanOk i s (.ok d)) :
    PlanOk i s (s.checkFrame p d) := by
  apply PlanOk.checkPlane
  split
  · exact h
  · exact ⟨nofun, nofun⟩

theorem planOk_cvt (stype dtype : Nat) (s : State) :
    PlanOk (.cvt stype dtype) s (commandPlan (.cvt stype dtype) s) := by
  cases hs : sampleType? stype with
  | none => simp [commandPlan, hs, PlanOk]
  | some source =>
    cases hd : sampleType? dtype with
    | none => simp [commandPlan, hs, hd, PlanOk]
    | some target =>
      cases source <;> cases target <;>
        simp [commandPlan, hs, hd, PlanOk, destBytes, State.convertPlan, State.mapPlan, State.copyPlan,
          State.splitPlan, State.joinPlan, Nat.mul_comm]

theorem commandPlan_ok (i : Instr) (s : State) : PlanOk i s (commandPlan i s) := by
  cases i with
  | i8tou8 => exact Nat.mul_one _
  | u8toi8 => exact Nat.mul_one _
  | i16toi8 => exact Nat.mul_one _
  | i8toi16 => exact Nat.mul_comm _ _
  | cvt stype dtype => exact planOk_cvt stype dtype s
  | getbp p => exact PlanOk.checkPlane p rfl
  | setbp p => exact PlanOk.checkPlane p rfl
  | setbpp p => exact PlanOk.checkPlane p rfl
  | fenc p => exact PlanOk.checkFrame p rfl
  | fdec p => exact PlanOk.checkFrame p (Nat.mul_one _)

/-- The one inversion of exec: a command raises an error it may end with, or delivers exactly the bytes of its
destination, which is one of the regions it checks. -/
theorem exec_cases (i : Instr) (s : State) :
    (∃ e, e ≠ .none ∧ e ≠ .illegalCmd ∧ exec i s = .next (s.raise e)) ∨
    (∃ regions size lanes lane n t, (s.dst, lanes * size) ∈ regions ∧ lanes * size = destBytes i s ∧
      exec i s = .next (s.deliver regions size lanes lane n t)) := by
  have hplan := commandPlan_ok i s
  rw [exec_eq_finish]
  cases h : commandPlan i s with
  | error e =>
    rw [h] at hplan
    obtain ⟨hnone, hillegal⟩ := hplan
    exact .inl ⟨e, hnone, hillegal, rfl⟩
  | ok d =>
    rw [h] at hplan
    exact .inr ⟨_, _, _, _, _, _, by simp, hplan, rfl⟩

end Sys2Proof.Machine

/-! SUPPORT. The invariant (10_state.md R24, R29, R31), kept by every completion and by every host access. -/

namespace Sys2Proof.Machine

/-! ### The completions -/

theorem Status.consistent_complete (t : Bool) :
    Status.consistent { busy := false, done := true, err := false, trunc := t, errCode := .none } := by
  cases t <;> decide

theorem Status.consistent_raise {e : ErrCode} (he : e ≠ .none) :
    Status.consistent { busy := false, done := true, err := true, trunc := false, errCode := e } := by
  simp [Status.consistent, he]

theorem State.raise_inv {s : State} {e : ErrCode} (hs : s.Inv) (he : e ≠ .none) : (s.raise e).Inv := by
  obtain ⟨hbuf, hwf, hbelow, -, -⟩ := hs
  exact ⟨hbuf, hwf, hbelow, Status.consistent_raise he, fun _ => rfl⟩

theorem State.deliver_inv {s : State} {regions : List (Nat × Nat)} {size lanes : Nat} (lane : Nat → Word) (n : Nat)
    (t : Bool) (hs : s.Inv) (hdst : (s.dst, lanes * size) ∈ regions) :
    (s.deliver regions size lanes lane n t).Inv := by
  by_cases hall : s.allInRange regions = true
  · obtain ⟨hbuf, hwf, hbelow, -, -⟩ := hs
    obtain ⟨⟨hstatus, -, -, -, -, -, -, hbufBytes, -⟩, -⟩ :=
      State.deliver_completed (size := size) (lanes := lanes) (lane := lane) (n := n) (t := t) hall
    refine ⟨hbufBytes ▸ hbuf, State.deliver_wf _ _ _ _ _ _ hwf, ?_, ?_, ?_⟩
    · rw [hbufBytes]
      exact State.deliver_below lane n t hdst hbelow
    · rw [hstatus]
      exact Status.consistent_complete t
    · rw [hstatus]
      nofun
  · rw [State.deliver, if_neg hall]
    exact State.raise_inv hs nofun

/-! ### The two agents -/

/-- The invariant does not see what surrounds the block. -/
theorem State.inv_withEnv {s : State} (e : Env) (hs : s.Inv) : State.Inv { s with env := e } := hs

theorem State.takeTurn_inv {s : State} (hs : s.Inv) : s.takeTurn.Inv := by
  unfold State.takeTurn
  split <;> exact hs

theorem State.issue_inv {s : State} (w : Word) (hs : s.Inv) : (s.issue w).Inv := by
  obtain ⟨hbuf, hwf, hbelow, -, -⟩ := hs
  exact ⟨hbuf, hwf, hbelow, by rw [State.issue_status]; decide, nofun⟩

theorem State.csrWrite_inv {s : State} (o : Nat) (v : Word) (hs : s.Inv) : (s.csrWrite o v).Inv := by
  unfold State.csrWrite
  split
  case h_1 => exact State.issue_inv v hs
  all_goals exact hs

theorem State.assertReset_inv {s : State} (hs : s.Inv) : s.assertReset.Inv := by
  obtain ⟨hbuf, -⟩ := hs
  exact ⟨hbuf, rfl, rfl, by rw [State.assertReset_status]; decide, nofun⟩

theorem State.writeRam_inv {s : State} {o n : Nat} (v : Word) (hs : s.Inv) (hin : o + n ≤ s.bufBytes) :
    State.Inv { s with ram := s.ram.writeLE o n v } := by
  obtain ⟨hbuf, hwf, hbelow, hstatus, hresult⟩ := hs
  exact ⟨hbuf, Memory.wf_writeLE o n v hwf, Memory.below_writeLE v hin hbelow, hstatus, hresult⟩

theorem State.ramAccessOk_iff {s : State} {o n : Nat} :
    s.ramAccessOk o n = true ↔ (n = 1 ∨ n = 2 ∨ n = 4) ∧ o + n ≤ s.bufBytes := by
  simp [State.ramAccessOk]

theorem hostStep_inv {op : HostOp} {s t : State} (hs : s.Inv) (h : hostStep op s = .next t) : t.Inv := by
  obtain ⟨o, -, -, rfl⟩ | ⟨o, v, -, -, -, rfl⟩ | ⟨o, n, -, -, -, rfl⟩ | ⟨o, n, v, -, hok, -, rfl⟩ | ⟨-, -, rfl⟩ |
    ⟨-, -, rfl⟩ | ⟨-, rfl⟩ := hostStep_cases h
  · exact State.inv_withEnv _ hs
  · exact State.csrWrite_inv o v hs
  · exact State.inv_withEnv _ hs
  · exact State.writeRam_inv v hs (State.ramAccessOk_iff.mp hok).2
  · exact State.inv_withEnv _ hs
  · exact State.inv_withEnv _ hs
  · exact State.assertReset_inv hs

theorem exec_inv {i : Instr} {s t : State} (hs : s.Inv) (h : exec i s = .next t) : t.Inv := by
  obtain ⟨e, hnone, -, hexec⟩ | ⟨regions, size, lanes, lane, n, trunc, hdst, -, hexec⟩ := exec_cases i s
  · cases hexec.symm.trans h
    exact State.raise_inv hs hnone
  · cases hexec.symm.trans h
    exact State.deliver_inv lane n trunc hs hdst

theorem engineStep_inv {s t : State} (hs : s.Inv) (h : engineStep s = .next t) : t.Inv := by
  obtain ⟨i, -, hstep⟩ | ⟨e, -, hstep⟩ := engineStep_cases s
  · exact exec_inv hs (hstep.symm.trans h)
  · cases hstep.symm.trans h
    exact State.raise_inv hs nofun

/-! ### The statements -/

/-- Settles O4: a step is idle, the host's or the engine's, and each keeps the invariant. -/
theorem everyStepKeepsTheInvariant : Obligations.EveryStepKeepsTheInvariant := by
  unfold Obligations.EveryStepKeepsTheInvariant
  intro s t hs h
  obtain ⟨-, hstep⟩ | ⟨op, rest, -, hstep⟩ | ⟨-, hstep⟩ := step_cases s
  · cases hstep.symm.trans h
    exact hs
  · exact hostStep_inv (State.inv_withEnv _ (State.takeTurn_inv hs)) (hstep.symm.trans h)
  · exact engineStep_inv (State.takeTurn_inv hs) (hstep.symm.trans h)

/-- Settles O3: each clause is computed on the reset state. -/
theorem resetStateMeetsTheInvariant : Obligations.ResetStateMeetsTheInvariant := by
  unfold Obligations.ResetStateMeetsTheInvariant
  decide

end Sys2Proof.Machine

/-! SUPPORT. The encoder and the decoder are inverse (30_encoding.md R70 to R74, R78). -/

namespace Sys2Proof

theorem planeFits_iff {p : Nat} : planeFits p = true ↔ p < 256 := decide_eq_true_iff

theorem cvt_wellFormed_iff {st dt : Nat} : (Instr.cvt st dt).wellFormed = true ↔ st < 16 ∧ dt < 16 := by
  simp [Instr.wellFormed, typeCodeFits]

/-- A word that is a well-formed command's number is that command's word. -/
theorem encode_eq_of_toNat {w : Word} {i : Instr} (hi : i.wellFormed = true)
    (h : w.toNat = 256 * i.operandByte + i.opcode) : encode i = w :=
  BitVec.eq_of_toNat_eq ((toNat_encode hi).trans h.symm)

/-- A command of format N has no operands. -/
theorem wellFormed_of_formatN {i : Instr} (h : i = .i8tou8 ∨ i = .u8toi8 ∨ i = .i16toi8 ∨ i = .i8toi16) :
    i.wellFormed = true ∧ i.operandByte = 0 := by
  rcases h with rfl | rfl | rfl | rfl <;> exact ⟨rfl, rfl⟩

/-- The operand byte of a command of format P is its plane. -/
theorem wellFormed_of_formatP {i : Instr} {p : Nat} (hp : p < 256)
    (h : i = .getbp p ∨ i = .setbp p ∨ i = .setbpp p ∨ i = .fenc p ∨ i = .fdec p) :
    i.wellFormed = true ∧ i.operandByte = p := by
  rcases h with rfl | rfl | rfl | rfl | rfl <;> exact ⟨planeFits_iff.mpr hp, rfl⟩

end Sys2Proof

namespace Sys2Proof.Machine

theorem decode_encode_cvt {st dt : Nat} (hs : st < 16) (hd : dt < 16) :
    decode (encode (.cvt st dt)) = .ok (.cvt st dt) := by
  have hword : encode (.cvt st dt) = BitVec.ofNat 32 (4096 * dt + 256 * st + 0x14) := by
    rw [encode, Instr.operandByte, Instr.opcode, show 256 * (16 * dt + st) = 4096 * dt + 256 * st by omega]
  rw [hword, decode_cvt_word hs hd]

/-- Settles O5: the words of format N are computed, those of formats T and P are the ones their rows of R74 give. -/
theorem decodeOfEncodeIsTheCommand : Obligations.DecodeOfEncodeIsTheCommand := by
  unfold Obligations.DecodeOfEncodeIsTheCommand
  intro i h
  cases i with
  | i8tou8 => rfl
  | u8toi8 => rfl
  | i16toi8 => rfl
  | i8toi16 => rfl
  | cvt st dt =>
    obtain ⟨hs, hd⟩ := cvt_wellFormed_iff.mp h
    exact decode_encode_cvt hs hd
  | getbp p => exact decode_plane_word (op := 0x20) (by simp) (planeFits_iff.mp h)
  | setbp p => exact decode_plane_word (op := 0x21) (by simp) (planeFits_iff.mp h)
  | setbpp p => exact decode_plane_word (op := 0x22) (by simp) (planeFits_iff.mp h)
  | fenc p => exact decode_plane_word (op := 0x30) (by simp) (planeFits_iff.mp h)
  | fdec p => exact decode_plane_word (op := 0x31) (by simp) (planeFits_iff.mp h)

/-- Settles O6: by the inversion of the decoder, the command's operands are the word's own fields. -/
theorem encodeOfDecodeIsTheWord : Obligations.EncodeOfDecodeIsTheWord := by
  unfold Obligations.EncodeOfDecodeIsTheWord
  intro w i h
  obtain ⟨hw, hN⟩ | ⟨hhigh, hop, rfl | ⟨p, hp, hP⟩⟩ := decode_cases h
  · obtain ⟨hwf, hbyte⟩ := wellFormed_of_formatN hN
    exact ⟨hwf, encode_eq_of_toNat hwf (by omega)⟩
  · have hwf : (Instr.cvt (w.toNat / 256 % 16) (w.toNat / 4096 % 16)).wellFormed = true :=
      cvt_wellFormed_iff.mpr ⟨by omega, by omega⟩
    refine ⟨hwf, encode_eq_of_toNat hwf ?_⟩
    rw [← hop, Instr.operandByte]
    omega
  · obtain ⟨hwf, hbyte⟩ := wellFormed_of_formatP (by omega) hP
    exact ⟨hwf, encode_eq_of_toNat hwf (by omega)⟩

/-- Settles O8: each word is decoded by computation. -/
theorem tableWordsDecodeToTheirCommands : Obligations.TableWordsDecodeToTheirCommands := by
  unfold Obligations.TableWordsDecodeToTheirCommands
  decide

end Sys2Proof.Machine

/-! SUPPORT. What a command reads (its plan is a function of those operands alone) and what it leaves as it is
(10_state.md section 1, 20_memory.md section 4). -/

namespace Sys2Proof.Machine

/-! ### What a plan reads -/

/-- `t` has the operands of `s` that a plan reads, CHANNELS aside: RAM bytes, CFG, and the operand registers but
DST_ADDR. -/
structure SameOperands (s t : State) : Prop where
  byteAt : ∀ a, t.byteAt a = s.byteAt a
  pixw : t.pixw = s.pixw
  src : t.src = s.src
  val : t.val = s.val
  count : t.count = s.count
  changed : t.changed = s.changed
  msgLen : t.msgLen = s.msgLen

theorem State.elem_congr {s t : State} (h : ∀ a, t.byteAt a = s.byteAt a) (base i size : Nat) :
    t.elem base i size = s.elem base i size :=
  State.memRead_congr (fun _ _ => h _)

section
variable {s t : State} (hbyte : ∀ a, t.byteAt a = s.byteAt a) (hsrc : t.src = s.src) (hcount : t.count = s.count)
include hbyte hsrc hcount

theorem State.mapPlan_congr (g : Byte → Byte) : t.mapPlan g = s.mapPlan g := by
  simp only [State.mapPlan, State.byteSample, State.elem_congr hbyte, hsrc, hcount]

theorem State.copyPlan_congr : t.copyPlan = s.copyPlan := by
  simp only [State.copyPlan, State.elem_congr hbyte, hsrc, hcount]

theorem State.splitPlan_congr (g : Byte → Byte) : t.splitPlan g = s.splitPlan g := by
  simp only [State.splitPlan, State.elem_congr hbyte, hsrc, hcount]

theorem State.joinPlan_congr (g : Byte → Byte) : t.joinPlan g = s.joinPlan g := by
  simp only [State.joinPlan, State.byteSample, State.elem_congr hbyte, hsrc, hcount]

theorem State.convertPlan_congr (source target : SampleType) :
    t.convertPlan source target = s.convertPlan source target := by
  cases source <;> cases target <;>
    simp only [State.convertPlan, State.mapPlan_congr hbyte hsrc hcount, State.copyPlan_congr hbyte hsrc hcount,
      State.splitPlan_congr hbyte hsrc hcount, State.joinPlan_congr hbyte hsrc hcount]

/-- The sample-width family reads the RAM, SRC_ADDR and COUNT alone. -/
theorem samplePlan_congr {i : Instr}
    (hi : i = .i8tou8 ∨ i = .u8toi8 ∨ i = .i16toi8 ∨ i = .i8toi16 ∨ ∃ st dt, i = .cvt st dt) :
    commandPlan i t = commandPlan i s := by
  rcases hi with rfl | rfl | rfl | rfl | ⟨st, dt, rfl⟩
  · exact congrArg Except.ok (State.mapPlan_congr hbyte hsrc hcount flip)
  · exact congrArg Except.ok (State.mapPlan_congr hbyte hsrc hcount flip)
  · exact congrArg Except.ok (State.splitPlan_congr hbyte hsrc hcount id)
  · exact congrArg Except.ok (State.joinPlan_congr hbyte hsrc hcount id)
  · simp only [commandPlan, State.convertPlan_congr hbyte hsrc hcount]

end

namespace SameOperands

variable {s t : State}

theorem pixW (h : SameOperands s t) : t.pixW = s.pixW := (State.pix_of_pixw h.pixw).1

theorem pixB (h : SameOperands s t) : t.pixB = s.pixB := (State.pix_of_pixw h.pixw).2

theorem pixelBytes (h : SameOperands s t) : t.pixelBytes = s.pixelBytes := by
  rw [State.pixelBytes, State.pixelBytes, h.count, h.pixB]

theorem elem (h : SameOperands s t) (base i size : Nat) : t.elem base i size = s.elem base i size :=
  State.elem_congr h.byteAt base i size

theorem planeWritten (h : SameOperands s t) (p i : Nat) : t.planeWritten p i = s.planeWritten p i := by
  simp only [State.planeWritten, h.elem, h.src, h.val, h.pixB]

theorem messageBit (h : SameOperands s t) (k : Nat) : t.messageBit k = s.messageBit k := by
  rw [State.messageBit_eq, State.messageBit_eq, h.byteAt, h.val]

theorem embeddedBits (h : SameOperands s t) : t.embeddedBits = s.embeddedBits := by
  rw [State.embeddedBits, State.embeddedBits, h.msgLen, h.count]

theorem checkPlane (h : SameOperands s t) (p : Nat) (plan : Except ErrCode Delivery) :
    t.checkPlane p plan = s.checkPlane p plan := by
  rw [State.checkPlane, State.checkPlane, State.planeOk, State.planeOk, h.pixW]

theorem pixelPlan (h : SameOperands s t) (more : List (Nat × Nat)) (lane : Nat → Word) (n : Nat) (trunc : Bool) :
    t.pixelPlan more lane n trunc = s.pixelPlan more lane n trunc := by
  simp only [State.pixelPlan, h.src, h.pixelBytes, h.pixB, h.count]

theorem extractPlan (h : SameOperands s t) (p : Nat) : t.extractPlan p = s.extractPlan p := by
  simp only [State.extractPlan, h.src, h.pixelBytes, h.pixB, h.count, h.elem]

/-- A plan is a function of these operands, and of CHANNELS through the shape check alone. -/
theorem commandPlan (h : SameOperands s t) (hshape : t.shapeOk = s.shapeOk) (i : Instr) :
    commandPlan i t = commandPlan i s := by
  cases i with
  | i8tou8 => exact samplePlan_congr h.byteAt h.src h.count (by simp)
  | u8toi8 => exact samplePlan_congr h.byteAt h.src h.count (by simp)
  | i16toi8 => exact samplePlan_congr h.byteAt h.src h.count (by simp)
  | i8toi16 => exact samplePlan_congr h.byteAt h.src h.count (by simp)
  | cvt st dt => exact samplePlan_congr h.byteAt h.src h.count (by simp)
  | getbp p => simp only [Machine.commandPlan, h.checkPlane, h.pixelPlan, h.elem, h.src, h.pixB, h.count]
  | setbp p =>
    simp only [Machine.commandPlan, h.checkPlane, h.pixelPlan, h.planeWritten, h.val, h.pixelBytes, h.count]
  | setbpp p =>
    simp only [Machine.commandPlan, h.checkPlane, h.pixelPlan, h.planeWritten, h.elem, h.src, h.val, h.pixelBytes,
      h.pixB, h.changed, h.count]
  | fenc p =>
    simp only [Machine.commandPlan, State.checkFrame, h.checkPlane, hshape, h.pixelPlan, h.messageBit, h.embeddedBits,
      h.elem, h.src, h.val, h.pixB, h.msgLen, h.count]
  | fdec p => simp only [Machine.commandPlan, State.checkFrame, h.checkPlane, hshape, h.extractPlan]

end SameOperands

/-! ### What finishing a plan does -/

/-- Beside the plan, RAM, RESULT_COUNT and STATUS depend on the RAM, DST_ADDR and BUF_BYTES alone. -/
theorem State.finish_congr {s t : State} (hram : t.ram = s.ram) (hdst : t.dst = s.dst) (hbuf : t.bufBytes = s.bufBytes)
    (plan : Except ErrCode Delivery) :
    (t.finish plan).ram = (s.finish plan).ram ∧ (t.finish plan).resultCount = (s.finish plan).resultCount ∧
      (t.finish plan).status = (s.finish plan).status := by
  cases plan with
  | error e => exact ⟨hram, rfl, rfl⟩
  | ok d =>
    have hall (regions : List (Nat × Nat)) : t.allInRange regions = s.allInRange regions := by
      simp only [State.allInRange, State.inRange, hbuf]
    rw [State.finish, State.finish, State.deliver, State.deliver, hall, hdst, hram]
    split
    · exact ⟨rfl, rfl, rfl⟩
    · exact ⟨hram, rfl, rfl⟩

/-- Commands of one plan that find the same RAM and the same destination leave the same RAM, RESULT_COUNT and STATUS. -/
theorem outputs_congr {i : Instr} {s t : State} (hplan : commandPlan i t = commandPlan i s) (hram : t.ram = s.ram)
    (hdst : t.dst = s.dst) (hbuf : t.bufBytes = s.bufBytes) :
    (t.finish (commandPlan i t)).ram = (s.finish (commandPlan i s)).ram ∧
      (t.finish (commandPlan i t)).resultCount = (s.finish (commandPlan i s)).resultCount ∧
      (t.finish (commandPlan i t)).status = (s.finish (commandPlan i s)).status := by
  rw [hplan]
  exact State.finish_congr hram hdst hbuf _

theorem State.deliver_withEnv (s : State) (e : Env) (regions : List (Nat × Nat)) (size lanes : Nat) (lane : Nat → Word)
    (n : Nat) (t : Bool) :
    State.deliver { s with env := e } regions size lanes lane n t =
      { s.deliver regions size lanes lane n t with env := e } := by
  have hall : State.allInRange { s with env := e } regions = s.allInRange regions := rfl
  rw [State.deliver, State.deliver, hall]
  by_cases h : s.allInRange regions = true
  · rw [if_pos h, if_pos h]
    rfl
  · rw [if_neg h, if_neg h]
    rfl

theorem State.finish_withEnv (s : State) (e : Env) (plan : Except ErrCode Delivery) :
    State.finish { s with env := e } plan = { s.finish plan with env := e } := by
  cases plan with
  | error code => rfl
  | ok d => exact State.deliver_withEnv ..

/-- Without an error the plan was a delivery, and every byte of the destination is a byte of its lane. -/
theorem State.finish_bytes {s : State} {plan : Except ErrCode Delivery} (h : (s.finish plan).status.err = false) :
    ∃ d, plan = .ok d ∧ ∀ k, k < d.lanes * d.size →
      (s.finish plan).byteAt (s.dst + k) = (d.lane (k / d.size) >>> (8 * (k % d.size))).setWidth 8 := by
  cases plan with
  | error e => cases h
  | ok d =>
    refine ⟨d, rfl, fun k hk => ?_⟩
    have hall : s.allInRange (d.sources ++ [(s.dst, d.lanes * d.size)]) = true := by
      by_contra hout
      rw [State.finish, State.deliver, if_neg hout] at h
      cases h
    have hsize : 0 < d.size := Nat.pos_of_mul_pos_left (Nat.zero_lt_of_lt hk)
    have hlane : k / d.size < d.lanes := Nat.div_lt_of_lt_mul (by rwa [Nat.mul_comm])
    obtain ⟨-, hbytes⟩ := State.deliver_completed (lane := d.lane) (n := d.result) (t := d.trunc) hall
    have hbyte := hbytes (k / d.size) (k % d.size) hlane (Nat.mod_lt k hsize)
    rwa [Nat.add_assoc, Nat.div_add_mod'] at hbyte

/-- In range or not, deliver changes no byte outside its destination. -/
theorem State.deliver_byteAt_outside (s : State) (regions : List (Nat × Nat)) {size lanes a : Nat} (lane : Nat → Word)
    (n : Nat) (t : Bool) (ha : ¬(s.dst ≤ a ∧ a < s.dst + lanes * size)) :
    (s.deliver regions size lanes lane n t).byteAt a = s.byteAt a := by
  unfold State.deliver
  split
  · exact State.byteAt_writeElems_outside _ _ _ _ _ _ ha
  · rfl

/-! ### The statements -/

/-- Settles O14: the environment is no operand of the plan and is not touched where it is finished. -/
theorem commandsNeitherReadNorWriteTheEnvironment : Obligations.CommandsNeitherReadNorWriteTheEnvironment := by
  unfold Obligations.CommandsNeitherReadNorWriteTheEnvironment
  intro i s t e h
  cases (exec_eq_finish i s).symm.trans h
  have same : SameOperands s { s with env := e } := ⟨fun _ => rfl, rfl, rfl, rfl, rfl, rfl, rfl⟩
  rw [exec_eq_finish, same.commandPlan rfl, State.finish_withEnv]

/-- Settles O25: a command raises an error it may end with, or delivers. -/
theorem everyCommandCompletesAndKeepsItsOperands : Obligations.EveryCommandCompletesAndKeepsItsOperands := by
  unfold Obligations.EveryCommandCompletesAndKeepsItsOperands
  intro i s
  obtain ⟨e, hnone, hillegal, h⟩ | ⟨regions, size, lanes, lane, n, t, -, -, h⟩ := exec_cases i s
  · exact ⟨_, h, rfl, rfl, hillegal, rfl, rfl, rfl, rfl, rfl, rfl, fun _ => ⟨rfl, rfl, rfl, hnone⟩, nofun⟩
  · refine ⟨_, h, ?_⟩
    unfold State.deliver
    split
    · exact ⟨rfl, rfl, nofun, rfl, rfl, rfl, rfl, rfl, rfl, nofun, fun _ => rfl⟩
    · exact ⟨rfl, rfl, nofun, rfl, rfl, rfl, rfl, rfl, rfl, fun _ => ⟨rfl, rfl, rfl, nofun⟩, nofun⟩

/-- Settles O26: an error writes no byte, and a delivery's lanes are the destination. -/
theorem commandsWriteOnlyTheirDestination : Obligations.CommandsWriteOnlyTheirDestination := by
  unfold Obligations.CommandsWriteOnlyTheirDestination
  intro i s t h a ha
  obtain ⟨e, -, -, hexec⟩ | ⟨regions, size, lanes, lane, n, trunc, -, hlen, hexec⟩ := exec_cases i s
  · cases hexec.symm.trans h
    rfl
  · cases hexec.symm.trans h
    exact State.deliver_byteAt_outside s regions lane n trunc (by rwa [hlen])

/-- Settles O27: DST_ADDR is no operand of the plan, so both commands deliver the same lanes. -/
theorem overlapDoesNotChangeTheResult : Obligations.OverlapDoesNotChangeTheResult := by
  unfold Obligations.OverlapDoesNotChangeTheResult
  intro i s t u d e ht hterr hu huerr k hk
  cases (exec_eq_finish i _).symm.trans ht
  cases (exec_eq_finish i _).symm.trans hu
  have same : SameOperands (s.aimed s.opnd.srcAddr d s.opnd.count) (s.aimed s.opnd.srcAddr e s.opnd.count) :=
    ⟨fun _ => rfl, rfl, rfl, rfl, rfl, rfl, rfl⟩
  rw [same.commandPlan rfl i] at huerr ⊢
  obtain ⟨plan, hplan, htbytes⟩ := State.finish_bytes hterr
  obtain ⟨_, hplan', hubytes⟩ := State.finish_bytes huerr
  cases hplan.symm.trans hplan'
  have hlen : plan.lanes * plan.size = destBytes i s := by
    have hok := commandPlan_ok i (s.aimed s.opnd.srcAddr d s.opnd.count)
    rwa [hplan] at hok
  rw [← hlen] at hk
  exact (htbytes k hk).trans (hubytes k hk).symm

/-- Settles O40: the plan reads the RAM, SRC_ADDR and COUNT, and finishing it DST_ADDR. -/
theorem sampleCommandsIgnorePixelRegisters : Obligations.SampleCommandsIgnorePixelRegisters := by
  unfold Obligations.SampleCommandsIgnorePixelRegisters
  intro i s t b va ch cn ml hi h
  cases (exec_eq_finish i s).symm.trans h
  refine ⟨_, exec_eq_finish i _, outputs_congr ?_ rfl rfl rfl⟩
  apply samplePlan_congr _ _ _ hi
  · exact fun _ => rfl
  · rfl
  · rfl

/-- Settles O54: with two channel counts that pass the shape check the plan is the same. -/
theorem channelCountChangesNoOutput : Obligations.ChannelCountChangesNoOutput := by
  unfold Obligations.ChannelCountChangesNoOutput
  intro s p c d hc hcdvd hd hddvd
  have same : SameOperands { s with opnd := { s.opnd with channels := d } }
      { s with opnd := { s.opnd with channels := c } } := ⟨fun _ => rfl, rfl, rfl, rfl, rfl, rfl, rfl⟩
  have shape {n : Word} (hn : n ≠ 0) (hdvd : s.count % n.toNat = 0) :
      State.shapeOk { s with opnd := { s.opnd with channels := n } } = true :=
    decide_eq_true ⟨fun h => hn (BitVec.eq_of_toNat_eq h), hdvd⟩
  have plan := same.commandPlan ((shape hc hcdvd).trans (shape hd hddvd).symm)
  exact ⟨⟨_, _, exec_eq_finish _ _, exec_eq_finish _ _, outputs_congr (plan _) rfl rfl rfl⟩,
    ⟨_, _, exec_eq_finish _ _, exec_eq_finish _ _, outputs_congr (plan _) rfl rfl rfl⟩⟩

end Sys2Proof.Machine

/-! SUPPORT. Runs (10_state.md section 4, 70_reset_and_hazards.md sections 3 and 4): whose turn it is, what the engine's
step leaves alone, how a pending command ends, and what the host's discipline keeps. -/

namespace Sys2Proof.Machine

/-! ### Whose turn it is -/

theorem State.mover_eq_engine {s : State} (hb : s.status.busy = true)
    (h : s.env.script = [] ∨ s.env.turns = [] ∨ s.env.turns.head? = some .engine) : s.mover = .engine := by
  obtain ⟨-, hidle, -⟩ | ⟨op, rest, -, hscript, hidle | ⟨ts, hturns⟩⟩ | ⟨hm, -⟩ := s.mover_cases
  · simp [hb] at hidle
  · simp [hb] at hidle
  · simp [hscript, hturns] at h
  · exact hm

theorem State.mover_eq_host {s : State} {op : HostOp} {rest : List HostOp} (hscript : s.env.script = op :: rest)
    (h : s.status.busy = false ∨ s.env.turns.head? = some .host) : s.mover = .host op rest := by
  obtain ⟨-, -, hnone⟩ | ⟨op', rest', hm, hscript', -⟩ | ⟨-, hb, hengine⟩ := s.mover_cases
  · simp [hscript] at hnone
  · rw [hscript] at hscript'
    cases hscript'
    exact hm
  · rcases hengine with hnone | hnone | ⟨ts, hturns⟩
    · simp [hscript] at hnone
    · simp [hb, hnone] at h
    · simp [hb, hturns] at h

theorem State.mover_eq_idle {s : State} (h : s.ended) : s.mover = .idle := by
  obtain ⟨hscript, hb⟩ := h
  simp [State.mover, hscript, hb]

theorem State.busy_of_mover_engine {s : State} (h : s.mover = .engine) : s.status.busy = true := by
  obtain ⟨hm, -⟩ | ⟨op, rest, hm, -⟩ | ⟨-, hb, -⟩ := s.mover_cases
  · cases h.symm.trans hm
  · cases h.symm.trans hm
  · exact hb

theorem State.takeTurn_of_idle {s : State} (h : s.status.busy = false) : s.takeTurn = s := by
  simp [State.takeTurn, h]

/-! ### The engine's step -/

/-- The engine's step completes the command, and leaves what surrounds the block and BUF_BYTES as they are. -/
theorem engineStep_ends (s : State) :
    ∃ t, engineStep s = .next t ∧ t.status.busy = false ∧ t.status.done = true ∧ t.bufBytes = s.bufBytes ∧
      t.env = s.env := by
  obtain ⟨i, -, h⟩ | ⟨e, -, h⟩ := engineStep_cases s
  · obtain ⟨t, hexec, hb, hdone, -, -, -, -, -, hbuf, henv, -⟩ := everyCommandCompletesAndKeepsItsOperands i s
    exact ⟨t, h.trans hexec, hb, hdone, hbuf, henv⟩
  · exact ⟨_, h, rfl, rfl, rfl, rfl⟩

/-! ### How a pending command ends -/

/-- The next step ends the pending command: the engine's, which completes it, the host's reset, or a refused access. -/
def PendingEnds (u : State) : Prop :=
  (u.mover = .engine ∧ ∃ t, step u = .next t ∧ t.status.busy = false ∧ t.status.done = true) ∨
  (∃ rest t, u.mover = .host .reset rest ∧ step u = .next t ∧ t.status.busy = false ∧ t.status.done = false) ∨
  ∃ r, step u = .refused r

theorem pendingEnds_of_engine {s : State} (hm : s.mover = .engine) : PendingEnds s := by
  obtain ⟨t, hstep, hb, hdone, -⟩ := engineStep_ends s.takeTurn
  exact .inl ⟨hm, t, (step_of_engine hm).trans hstep, hb, hdone⟩

/-- A host access that has a meaning while BUSY = 1 leaves the command pending, and the turns, or is the reset. -/
theorem hostStep_of_pending {op : HostOp} {s t : State} (hb : s.status.busy = true) (h : hostStep op s = .next t) :
    (t.status.busy = true ∧ t.env.turns = s.env.turns) ∨
    (op = .reset ∧ t.status.busy = false ∧ t.status.done = false) := by
  obtain ⟨o, -, -, rfl⟩ | ⟨o, v, -, -, hidle, -⟩ | ⟨o, n, -, -, hidle, -⟩ | ⟨o, n, v, -, -, hidle, -⟩ | ⟨-, -, rfl⟩ |
    ⟨-, hidle, -⟩ | ⟨hop, rfl⟩ := hostStep_cases h
  · exact .inl ⟨hb, rfl⟩
  · simp [hb] at hidle
  · simp [hb] at hidle
  · simp [hb] at hidle
  · exact .inl ⟨hb, rfl⟩
  · simp [hb] at hidle
  · exact .inr ⟨hop, rfl, rfl⟩

/-- The step of a pending command ends it, or uses up a turn of the host's and leaves it pending. -/
theorem step_of_pending {s : State} (hb : s.status.busy = true) :
    PendingEnds s ∨
    ∃ t ts, step s = .next t ∧ t.status.busy = true ∧ s.env.turns = .host :: ts ∧ t.env.turns = ts := by
  obtain ⟨-, hidle, -⟩ | ⟨op, rest, hm, -, hidle | ⟨ts, hturns⟩⟩ | ⟨hm, -⟩ := s.mover_cases
  · simp [hb] at hidle
  · simp [hb] at hidle
  · cases hstep : step s with
    | fault r => cases r
    | refused r => exact .inl (.inr (.inr ⟨r, hstep⟩))
    | next t =>
      have hhost := (step_of_host hm).symm.trans hstep
      obtain ⟨htb, ht⟩ | ⟨rfl, htb, htd⟩ := hostStep_of_pending (by simpa using hb) hhost
      · refine .inr ⟨t, ts, rfl, htb, hturns, ht.trans ?_⟩
        simp [State.takeTurn_of_busy hb, hturns]
      · exact .inl (.inr (.inl ⟨rest, t, hm, hstep, htb, htd⟩))
  · exact .inl (pendingEnds_of_engine hm)

/-- After at most as many steps as there are turns left, none of which touches the block, comes the one that ends the
command. -/
theorem pending_ends {ts : List Agent} {s : State} (hb : s.status.busy = true) (hts : s.env.turns = ts) :
    ∃ k u, k ≤ ts.length ∧ Host.Core.run Sys2Proof.core k s = .next u ∧ u = { s with env := u.env } ∧
      PendingEnds u := by
  induction ts generalizing s with
  | nil =>
    have hm := State.mover_eq_engine hb (.inr (.inl hts))
    exact ⟨0, s, Nat.zero_le _, run_zero s, rfl, pendingEnds_of_engine hm⟩
  | cons a ts ih =>
    obtain hends | ⟨t, ts', hstep, htb, hturns, ht⟩ := step_of_pending hb
    · exact ⟨0, s, Nat.zero_le _, run_zero s, rfl, hends⟩
    · cases hts.symm.trans hturns
      obtain ⟨k, u, hk, hrun, hu, hends⟩ := ih htb ht
      have hblock := step_keeps_pending_block hb hstep htb
      refine ⟨k + 1, u, Nat.succ_le_succ hk, (run_succ_of_next k hstep).trans hrun, ?_, hends⟩
      rw [hblock] at hu
      exact hu

/-! ### A WAIT sees the completion -/

theorem hostStep_wait_idle {s : State} (hb : s.status.busy = false) :
    hostStep .wait s = .next (s.reply s.status.toWord) := by
  rw [hostStep, hb, if_neg Bool.false_ne_true]

theorem hostStep_wait_busy {s : State} (hb : s.status.busy = true) :
    hostStep .wait s = .next (State.reply (s.withScript (.wait :: s.env.script)) s.status.toWord) :=
  if_pos hb

/-- The last poll of a WAIT: it reads BUSY = 0 and is taken off the script. -/
theorem step_of_last_poll {s : State} {rest : List HostOp} (hb : s.status.busy = false)
    (hscript : s.env.script = .wait :: rest) : step s = .next ((s.withScript rest).reply s.status.toWord) := by
  rw [step_of_host (State.mover_eq_host hscript (.inl hb)), State.takeTurn_of_idle hb]
  exact hostStep_wait_idle hb

/-- A poll that reads BUSY = 1 stays at the head of the script, and uses up a turn. -/
theorem step_of_poll {s : State} {rest : List HostOp} (hb : s.status.busy = true) (hm : s.mover = .host .wait rest) :
    ∃ t, step s = .next t ∧ t.status.busy = true ∧ t.env.script = .wait :: rest ∧ t.env.turns = s.env.turns.tail := by
  have hwait := hostStep_wait_busy (s := s.takeTurn.withScript rest) (by simpa using hb)
  exact ⟨_, (step_of_host hm).trans hwait, by simpa using hb, rfl, by simp [State.takeTurn_of_busy hb]⟩

/-- The engine's step and then the WAIT's last poll. -/
theorem wait_done_after_engine {s : State} {rest : List HostOp} (hm : s.mover = .engine)
    (hscript : s.env.script = .wait :: rest) :
    ∃ t, Host.Core.run Sys2Proof.core 2 s = .next t ∧ t.status.busy = false ∧ t.status.done = true ∧
      t.env.script = rest ∧ t.env.replies.head? = some t.status.toWord := by
  obtain ⟨t, hstep, hb, hdone, -, henv⟩ := engineStep_ends s.takeTurn
  have htscript : t.env.script = .wait :: rest := by rw [henv, State.takeTurn_script, hscript]
  have hrun := (run_succ_of_next 1 ((step_of_engine hm).trans hstep)).trans
    (run_succ_of_next 0 (step_of_last_poll hb htscript))
  exact ⟨_, hrun.trans (run_zero _), hb, hdone, rfl, rfl⟩

theorem wait_sees_completion {ts : List Agent} {s : State} {rest : List HostOp} (hb : s.status.busy = true)
    (hscript : s.env.script = .wait :: rest) (hts : s.env.turns = ts) :
    ∃ k t, k ≤ ts.length + 2 ∧ Host.Core.run Sys2Proof.core k s = .next t ∧ t.status.busy = false ∧
      t.status.done = true ∧ t.env.script = rest ∧ t.env.replies.head? = some t.status.toWord := by
  induction ts generalizing s with
  | nil =>
    obtain ⟨t, ht⟩ := wait_done_after_engine (State.mover_eq_engine hb (.inr (.inl hts))) hscript
    exact ⟨2, t, by omega, ht⟩
  | cons a ts ih =>
    cases a with
    | engine =>
      obtain ⟨t, ht⟩ := wait_done_after_engine (State.mover_eq_engine hb (.inr (.inr (by rw [hts]; rfl)))) hscript
      exact ⟨2, t, by omega, ht⟩
    | host =>
      obtain ⟨t, hstep, htb, htscript, htturns⟩ :=
        step_of_poll hb (State.mover_eq_host hscript (.inr (by rw [hts]; rfl)))
      obtain ⟨k, u, hk, hrun, hu⟩ := ih htb htscript (by rw [htturns, hts]; rfl)
      exact ⟨k + 1, u, by rw [List.length_cons]; omega, (run_succ_of_next k hstep).trans hrun, hu⟩

/-! ### The host's discipline (60_exceptions.md R215) -/

/-- The host's script is disciplined, a command pending or not. -/
def State.Disciplined (s : State) : Prop := disciplined s.bufBytes s.status.busy s.env.script = true

/-- A script that is disciplined with a command pending is so without one. -/
theorem disciplined_of_pending {bufBytes : Nat} {pending : Bool} {script : List HostOp}
    (h : disciplined bufBytes pending script = true) : disciplined bufBytes false script = true := by
  cases pending with
  | false => exact h
  | true =>
    induction script with
    | nil => rfl
    | cons op rest ih =>
      cases op with
      | readCsr o n =>
        simp only [disciplined, Bool.and_eq_true] at h ⊢
        exact ⟨h.1, ih h.2⟩
      | writeCsr o n v => simp [disciplined] at h
      | readRam o n => simp [disciplined] at h
      | writeRam o n v => simp [disciplined] at h
      | wait => exact h
      | reset => exact h

theorem csrAt?_eq_cmd_iff {o : Nat} : csrAt? o = some .cmd ↔ o = 0x008 :=
  ⟨offset_of_csrAt?, by rintro rfl; rfl⟩

/-- A CSR write from BUSY = 0 leaves a command pending exactly when it is to CMD. -/
theorem State.csrWrite_busy {s : State} (o : Nat) (v : Word) (hb : s.status.busy = false) :
    (s.csrWrite o v).status.busy = decide (o = 0x008) := by
  rw [State.csrWrite_status]
  simp only [csrAt?_eq_cmd_iff]
  split
  · next h => simp [h]
  · next h => simp [h, hb]

theorem hostStep_disciplined {op : HostOp} {s : State}
    (h : disciplined s.bufBytes s.status.busy (op :: s.env.script) = true) :
    ∃ t, hostStep op s = .next t ∧ t.Disciplined := by
  cases op with
  | readCsr o n =>
    simp only [disciplined, Bool.and_eq_true] at h
    obtain ⟨hok, hrest⟩ := h
    exact ⟨_, if_pos hok, hrest⟩
  | writeCsr o n v =>
    simp only [disciplined, Bool.and_eq_true, Bool.not_eq_true'] at h
    obtain ⟨⟨hok, hb⟩, hrest⟩ := h
    refine ⟨s.csrWrite o v, by simp [hostStep, hok, hb], ?_⟩
    obtain ⟨-, -, hbuf, henv, -⟩ := s.csrWrite_frame o v
    rw [State.Disciplined, State.csrWrite_busy o v hb, hbuf, henv]
    exact hrest
  | readRam o n =>
    simp only [disciplined, Bool.and_eq_true, Bool.not_eq_true'] at h
    obtain ⟨⟨hok, hb⟩, hrest⟩ := h
    exact ⟨s.reply (s.memRead o n), by simp only [hostStep, State.ramAccessOk, hok, hb]; rfl, by rwa [← hb] at hrest⟩
  | writeRam o n v =>
    simp only [disciplined, Bool.and_eq_true, Bool.not_eq_true'] at h
    obtain ⟨⟨hok, hb⟩, hrest⟩ := h
    exact ⟨{ s with ram := s.ram.writeLE o n v }, by simp only [hostStep, State.ramAccessOk, hok, hb]; rfl,
      by rwa [← hb] at hrest⟩
  | wait =>
    cases hb : s.status.busy with
    | true => exact ⟨_, hostStep_wait_busy hb, h⟩
    | false =>
      refine ⟨_, hostStep_wait_idle hb, ?_⟩
      rw [State.Disciplined, State.reply_status, hb]
      exact h
  | reset => exact ⟨_, rfl, h⟩

theorem step_disciplined {s : State} (h : s.Disciplined) : ∃ t, step s = .next t ∧ t.Disciplined := by
  obtain ⟨hm, hb, hscript⟩ | ⟨op, rest, hm, hscript, -⟩ | ⟨hm, -⟩ := s.mover_cases
  · exact ⟨s, by simp [step, hm], h⟩
  · rw [step_of_host hm]
    apply hostStep_disciplined
    rw [State.Disciplined, hscript] at h
    simpa using h
  · obtain ⟨t, hstep, hb, -, hbuf, henv⟩ := engineStep_ends s.takeTurn
    refine ⟨t, (step_of_engine hm).trans hstep, ?_⟩
    rw [State.Disciplined, hb, hbuf, henv, State.takeTurn_bufBytes, State.takeTurn_script]
    exact disciplined_of_pending h

theorem safeFor_of_disciplined {k : Nat} {s : State} (h : s.Disciplined) : SafeFor k s := by
  induction k generalizing s with
  | zero => trivial
  | succ k ih =>
    obtain ⟨t, hstep, ht⟩ := step_disciplined h
    exact ⟨t, hstep, ih ht⟩

/-! ### The statements -/

/-- Settles O15: each turn of the host's leaves the command pending or ends it, and when none is left the engine
moves. -/
theorem pendingCommandsEndAndWaitsSeeCompletion : Obligations.PendingCommandsEndAndWaitsSeeCompletion :=
  ⟨fun _ hb => pending_ends hb rfl, fun _ _ hb hscript => wait_sees_completion hb hscript rfl⟩

/-- Settles O16: every step of a disciplined host has a meaning and leaves it disciplined. -/
theorem disciplinedHostsAreNeverRefused : Obligations.DisciplinedHostsAreNeverRefused :=
  fun _ h _ => safeFor_of_disciplined h

/-- Settles O11: the three conditions make the engine the next to move. -/
theorem stepRunsTheDecodedCommand : Obligations.StepRunsTheDecodedCommand := by
  unfold Obligations.StepRunsTheDecodedCommand
  intro s i hb hturn hdecode _
  rw [step_of_command (State.mover_eq_engine hb hturn) hdecode, State.takeTurn_of_busy hb]

/-- Settles O12: with BUSY = 0, or at its turn, the host is the next to move. -/
theorem stepTakesTheHostsNextAccess : Obligations.StepTakesTheHostsNextAccess := by
  unfold Obligations.StepTakesTheHostsNextAccess
  intro s op rest hscript
  constructor
  · intro hb
    rw [step_of_host (State.mover_eq_host hscript (.inl hb)), State.takeTurn_of_idle hb]
    rfl
  · intro hb hturn
    rw [step_of_host (State.mover_eq_host hscript (.inr hturn)), State.takeTurn_of_busy hb]
    rfl

/-- Settles O13: nobody is next to move. -/
theorem idleBlockKeepsItsState : Obligations.IdleBlockKeepsItsState := by
  unfold Obligations.IdleBlockKeepsItsState
  intro s h
  rw [step, State.mover_eq_idle h]

/-- Settles O2: the reset clears BUSY, without which the engine does not move, and redraws every byte. -/
theorem resetAbandonsTheCommandAndRedrawsRam : Obligations.ResetAbandonsTheCommandAndRedrawsRam := by
  unfold Obligations.ResetAbandonsTheCommandAndRedrawsRam
  intro s
  have hidle : s.assertReset.status.busy = false := rfl
  refine ⟨s.assertReset, rfl, hidle, fun hm => ?_, rfl, rfl, s.assertReset_byteAt⟩
  exact absurd (State.busy_of_mover_engine hm) (Bool.eq_false_iff.mp hidle)

end Sys2Proof.Machine

/-! SUPPORT. The host's port to the RAM (20_memory.md sections 1, 2 and 6) and single values: bytes as numbers, STATUS
as a number, the sample maps (40_sample_width.md R101 to R103). -/

namespace Sys2Proof.Machine

/-! ### Values as numbers -/

theorem State.toNat_memRead_lt (s : State) (a n : Nat) : (s.memRead a n).toNat < 2 ^ (8 * n) := by
  apply Nat.lt_pow_two_of_testBit
  intro i hi
  rw [BitVec.testBit_toNat, State.getLsbD_memRead, decide_eq_false (by omega), Bool.false_and]

/-- A read is its first byte below the read of the others. -/
theorem State.toNat_memRead_succ (s : State) (a : Nat) {n : Nat} (hn : n < 4) :
    (s.memRead a (n + 1)).toNat = (s.byteAt a).toNat + 256 * (s.memRead (a + 1) n).toNat := by
  have hlo := (s.byteAt a).isLt
  have hhi : (s.memRead (a + 1) n).toNat < 2 ^ 24 :=
    (s.toNat_memRead_lt (a + 1) n).trans_le (Nat.pow_le_pow_right (by decide) (by omega))
  rw [State.memRead, BitVec.toNat_or, BitVec.toNat_shiftLeft, BitVec.toNat_setWidth, Nat.mod_eq_of_lt (by omega),
    Nat.mod_eq_of_lt (by rw [Nat.shiftLeft_eq]; omega), Nat.or_comm, ← Nat.shiftLeft_add_eq_or_of_lt hlo,
    Nat.shiftLeft_eq, Nat.add_comm, Nat.mul_comm]

/-- Byte k of a value, as a number. -/
theorem toNat_byte_of_word (v : Word) (k : Nat) : ((v >>> (8 * k)).setWidth 8).toNat = v.toNat / 256 ^ k % 256 := by
  rw [BitVec.toNat_setWidth, BitVec.toNat_ushiftRight, Nat.shiftRight_eq_div_pow, Nat.pow_mul]

/-- A read of bytes that are a value's own gives the value mod 256^n. -/
theorem State.toNat_memRead_of_bytes {t : State} {a n : Nat} {v : Word}
    (h : ∀ j, j < n → t.byteAt (a + j) = (v >>> (8 * j)).setWidth 8) : (t.memRead a n).toNat = v.toNat % 256 ^ n := by
  rw [show 256 ^ n = 2 ^ (8 * n) from (Nat.pow_mul 2 8 n).symm]
  apply Nat.eq_of_testBit_eq
  intro i
  rw [Nat.testBit_mod_two_pow, BitVec.testBit_toNat, BitVec.testBit_toNat]
  exact State.getLsbD_memRead_of_bytes h i

/-! ### The host's RAM accesses (R53) -/

theorem hostStep_readRam {s : State} {o n : Nat} (hok : s.ramAccessOk o n = true) (hb : s.status.busy = false) :
    hostStep (.readRam o n) s = .next (s.reply (s.memRead o n)) := by
  simp [hostStep, hok, hb]

theorem hostStep_writeRam {s : State} {o n : Nat} (v : Word) (hok : s.ramAccessOk o n = true)
    (hb : s.status.busy = false) : hostStep (.writeRam o n v) s = .next { s with ram := s.ram.writeLE o n v } := by
  simp [hostStep, hok, hb]

/-- Byte k of a stored value stands at distance k from its offset. -/
theorem State.byteAt_writeLE_inside (s : State) (o : Nat) {n k : Nat} (v : Word) (hk : k < n) :
    State.byteAt { s with ram := s.ram.writeLE o n v } (o + k) = (v >>> (8 * k)).setWidth 8 := by
  rw [State.byteAt_writeLE, if_pos (by omega), Nat.add_sub_cancel_left]

/-! ### join as concatenation -/

/-- The sign extension of the high byte is shifted out: join puts one byte above the other. -/
theorem join_eq_append (hi lo : Byte) : join hi lo = hi ++ lo := by
  apply BitVec.eq_of_getLsbD_eq
  intro i _
  rw [getLsbD_join, BitVec.getLsbD_append]

theorem toInt_join (hi lo : Byte) : (join hi lo).toInt = hi.toInt * 256 + (lo.toNat : Int) := by
  rw [join_eq_append, BitVec.toInt_append, if_neg (by decide), Int.mul_comm]
  rfl

/-- The bytes of a halfword held in a word are the halfword's own. -/
theorem bytes_setWidth (h : BitVec 16) :
    highByte (h.setWidth 32) = h.extractLsb' 8 8 ∧ lowByte (h.setWidth 32) = h.extractLsb' 0 8 := by
  constructor
  · apply BitVec.eq_of_getLsbD_eq
    intro i hi
    simp only [highByte, BitVec.getLsbD_extractLsb', BitVec.getLsbD_setWidth]
    rw [decide_eq_true (by omega : 8 + i < 32), Bool.true_and]
  · apply BitVec.eq_of_getLsbD_eq
    intro i hi
    simp only [lowByte, BitVec.getLsbD_extractLsb', BitVec.getLsbD_setWidth]
    rw [decide_eq_true (by omega : 0 + i < 32), Bool.true_and]

theorem extractLsb'_append_halves (h : BitVec 16) : h.extractLsb' 8 8 ++ h.extractLsb' 0 8 = h := by
  apply BitVec.eq_of_getLsbD_eq
  intro i hi
  rw [BitVec.getLsbD_append, BitVec.getLsbD_extractLsb', BitVec.getLsbD_extractLsb']
  split
  · next hlo => rw [decide_eq_true hlo, Bool.true_and, Nat.zero_add]
  · next hhi => rw [decide_eq_true (by omega), Bool.true_and, show 8 + (i - 8) = i by omega]

/-! ### The statements -/

/-- Settles O23: the write is writeLE, whose bytes the read puts together again. -/
theorem ramReadAfterWriteAnswersTheValue : Obligations.RamReadAfterWriteAnswersTheValue := by
  unfold Obligations.RamReadAfterWriteAnswersTheValue
  intro s o n v hb hn hin
  have hok : s.ramAccessOk o n = true := State.ramAccessOk_iff.mpr ⟨hn, hin⟩
  have hbytes {k : Nat} (hk : k < n) := s.byteAt_writeLE_inside o v hk
  refine ⟨_, hostStep_writeRam v hok hb, rfl, fun k hk => ?_, fun a ha => ?_, _, _, hostStep_readRam hok hb, rfl, ?_⟩
  · rw [hbytes hk, toNat_byte_of_word]
  · rw [State.byteAt_writeLE, if_neg ha]
  · exact State.toNat_memRead_of_bytes fun k hk => hbytes hk

/-- Settles O24: a read is its bytes one above the other, and an unlisted byte is the draw. -/
theorem readsAreLittleEndian : Obligations.ReadsAreLittleEndian := by
  unfold Obligations.ReadsAreLittleEndian
  refine ⟨fun s a => ?_, fun s o n hb hn hin => hostStep_readRam (State.ramAccessOk_iff.mpr ⟨hn, hin⟩) hb,
    fun s a h => by rw [State.byteAt, h, Option.getD_none]⟩
  have one (a : Nat) : (s.memRead a 1).toNat = (s.byteAt a).toNat := s.toNat_memRead_succ a (n := 0) (by decide)
  have two (a : Nat) := s.toNat_memRead_succ a (n := 1) (by decide)
  have three (a : Nat) := s.toNat_memRead_succ a (n := 2) (by decide)
  have four (a : Nat) := s.toNat_memRead_succ a (n := 3) (by decide)
  refine ⟨one a, (two a).trans (by rw [one]), (four a).trans ?_⟩
  rw [three, two, one, Nat.add_assoc a 1 1, Nat.add_assoc a (1 + 1) 1]
  omega

/-- Settles O20: each error code is a number, and the four flags are each 0 or 1. -/
theorem statusWordHasTheFieldsInPlace : Obligations.StatusWordHasTheFieldsInPlace := by
  unfold Obligations.StatusWordHasTheFieldsInPlace
  intro st
  obtain ⟨busy, done, err, trunc, code⟩ := st
  cases code <;> revert busy done err trunc <;> decide

/-- Settles O21: the port checks the form of an access before anything else. -/
theorem malformedAccessesAreRefused : Obligations.MalformedAccessesAreRefused := by
  unfold Obligations.MalformedAccessesAreRefused
  intro s o n v
  refine ⟨fun hbad => ?csr, fun hbad => ?ram⟩
  case csr =>
    have hok : ¬csrAccessOk o n = true := by rwa [csrAccessOk, decide_eq_true_iff]
    exact ⟨if_neg hok, if_neg hok⟩
  case ram =>
    have hok : ¬s.ramAccessOk o n = true := by rwa [State.ramAccessOk_iff]
    exact ⟨if_neg hok, if_neg hok⟩

/-- Settles O34: computed on each of the 256 bytes. -/
theorem flipShiftsTheDomainBy128 : Obligations.FlipShiftsTheDomainBy128 := by
  unfold Obligations.FlipShiftsTheDomainBy128
  decide

/-- Settles O35: join is concatenation, split takes its two halves. -/
theorem splitAndJoinAreInverse : Obligations.SplitAndJoinAreInverse := by
  unfold Obligations.SplitAndJoinAreInverse
  refine ⟨fun hi lo => ⟨toInt_join hi lo, ?_⟩, fun h => ?_⟩
  · obtain ⟨hhigh, hlow⟩ := bytes_setWidth (join hi lo)
    rw [hhigh, hlow, join_eq_append]
    exact ⟨BitVec.extractLsb'_append_eq_left, BitVec.extractLsb'_append_eq_right⟩
  · obtain ⟨hhigh, hlow⟩ := bytes_setWidth h
    rw [hhigh, hlow, join_eq_append, extractLsb'_append_halves]

/-- Settles O41: CFG reads its one stored bit. -/
theorem pixwSelectsTheElementWidth : Obligations.PixwSelectsTheElementWidth := by
  unfold Obligations.PixwSelectsTheElementWidth
  intro s
  have hcfg : s.csrRead 0x00C = if s.pixw then 1 else 0 := (s.csrRead_offset .cfg).trans (flagBit_zero s.pixw)
  rw [hcfg, State.pixW, State.pixB]
  cases s.pixw <;> decide

end Sys2Proof.Machine

/-! SUPPORT. The laws of the sample-width family (40_sample_width.md sections 2 and 3): a second command aimed at the
output of the first. -/

namespace Sys2Proof.Machine

/-! ### A next command aimed at the output of the last -/

@[simp] theorem State.aimed_src (s : State) (x y z : Word) : (s.aimed x y z).src = x.toNat := rfl
@[simp] theorem State.aimed_dst (s : State) (x y z : Word) : (s.aimed x y z).dst = y.toNat := rfl
@[simp] theorem State.aimed_count (s : State) (x y z : Word) : (s.aimed x y z).count = z.toNat := rfl
@[simp] theorem State.aimed_byteAt (s : State) (x y z : Word) (a : Nat) : (s.aimed x y z).byteAt a = s.byteAt a := rfl

/-- Aiming moves no region out of range, nor does a command that keeps BUF_BYTES. -/
theorem InRange.aimed {s t : State} {a len : Nat} (x y z : Word) (hbuf : t.bufBytes = s.bufBytes)
    (h : InRange s a len) : InRange (t.aimed x y z) a len :=
  InRange.of_bufBytes hbuf h

namespace Completed

variable {s t : State} {base len n : Nat} {trunc : Bool}

theorem bufBytes (h : Completed s t base len n trunc) : t.bufBytes = s.bufBytes := by
  obtain ⟨-, -, -, -, -, -, -, hbuf, -⟩ := h
  exact hbuf

theorem status (h : Completed s t base len n trunc) :
    t.status = { busy := false, done := true, err := false, trunc := trunc, errCode := .none } := h.1

theorem err (h : Completed s t base len n trunc) : t.status.err = false := by rw [h.status]

theorem trunc_eq (h : Completed s t base len n trunc) : t.status.trunc = trunc := by rw [h.status]

theorem resultCount (h : Completed s t base len n trunc) : t.resultCount = BitVec.ofNat 32 n := by
  obtain ⟨-, hn, -⟩ := h
  exact BitVec.eq_of_toNat_eq (hn.trans (BitVec.toNat_ofNat n 32).symm)

end Completed

/-! ### Pairs of bytes -/

/-- The other byte of the pair that byte k is in. -/
def pairSwap (k : Nat) : Nat := 2 * (k / 2) + (1 - k % 2)

theorem pairSwap_pairSwap (k : Nat) : pairSwap (pairSwap k) = k := by
  unfold pairSwap
  omega

theorem pairSwap_lt {k n : Nat} (hk : k < 2 * n) : pairSwap k < 2 * n := by
  unfold pairSwap
  omega

/-- What holds of both bytes of each of n pairs holds of each of the 2n bytes and its other. -/
theorem of_pairs {n : Nat} {P : Nat → Nat → Prop}
    (h : ∀ j, j < n → P (2 * j) (2 * j + 1) ∧ P (2 * j + 1) (2 * j)) {k : Nat} (hk : k < 2 * n) : P k (pairSwap k) := by
  obtain ⟨j, rfl | rfl⟩ : ∃ j, k = 2 * j ∨ k = 2 * j + 1 := ⟨k / 2, by omega⟩
  · rw [show pairSwap (2 * j) = 2 * j + 1 by unfold pairSwap; omega]
    exact (h j (by omega)).1
  · rw [show pairSwap (2 * j + 1) = 2 * j by unfold pairSwap; omega]
    exact (h j (by omega)).2

/-- splitHalfwords swaps the bytes of each pair, `g` on each. -/
theorem State.splitHalfwords_byteAt {s : State} (g : Byte → Byte)
    (h : InRange s s.src (2 * s.count) ∧ InRange s s.dst (2 * s.count)) {k : Nat} (hk : k < 2 * s.count) :
    (s.splitHalfwords g).byteAt (s.dst + k) = g (s.byteAt (s.src + pairSwap k)) :=
  of_pairs (P := fun k l => (s.splitHalfwords g).byteAt (s.dst + k) = g (s.byteAt (s.src + l)))
    (State.splitHalfwords_completed g h).2 hk

/-- joinBytes swaps the bytes of each whole pair, `g` on each. -/
theorem State.joinBytes_byteAt {s : State} (g : Byte → Byte)
    (h : InRange s s.src s.count ∧ InRange s s.dst (2 * (s.count / 2))) {k : Nat} (hk : k < 2 * (s.count / 2)) :
    (s.joinBytes g).byteAt (s.dst + k) = g (s.byteAt (s.src + pairSwap k)) :=
  of_pairs (P := fun k l => (s.joinBytes g).byteAt (s.dst + k) = g (s.byteAt (s.src + l)))
    (State.joinBytes_completed g h).2 hk

/-! ### One command after another -/

/-- Splitting and then joining under a byte map that is its own inverse gives the halfwords back (section 3, laws 1 and
3). -/
theorem State.joinBytes_after_split {s : State} {g : Byte → Byte} (hg : ∀ b, g (g b) = b) {d c : Word}
    (hc : c.toNat = 2 * s.count) (hin : InRange s s.src (2 * s.count) ∧ InRange s s.dst (2 * s.count))
    (hd : InRange s d.toNat (2 * s.count)) :
    let next := (s.splitHalfwords g).aimed s.opnd.dstAddr d c
    Completed next (next.joinBytes g) d.toNat (2 * s.count) s.count false ∧
      ∀ k, k < 2 * s.count → (next.joinBytes g).byteAt (d.toNat + k) = s.byteAt (s.src + k) := by
  intro next
  have hbuf := (State.splitHalfwords_completed g hin).1.bufBytes
  have hhalf : c.toNat / 2 = s.count := by omega
  have heven : ¬c.toNat % 2 = 1 := by omega
  have hjoin : InRange next next.src next.count ∧ InRange next next.dst (2 * (next.count / 2)) := by
    rw [State.aimed_count, hhalf, hc]
    exact ⟨hin.2.aimed _ _ _ hbuf, hd.aimed _ _ _ hbuf⟩
  obtain ⟨hdone, -⟩ := State.joinBytes_completed g hjoin
  rw [State.aimed_count, hhalf, decide_eq_false heven] at hdone
  refine ⟨hdone, fun k hk => ?_⟩
  calc (next.joinBytes g).byteAt (d.toNat + k)
      = g ((s.splitHalfwords g).byteAt (s.dst + pairSwap k)) :=
        State.joinBytes_byteAt g hjoin (by rwa [State.aimed_count, hhalf])
    _ = g (g (s.byteAt (s.src + pairSwap (pairSwap k)))) := by
        rw [State.splitHalfwords_byteAt g hin (pairSwap_lt hk)]
    _ = s.byteAt (s.src + k) := by rw [hg, pairSwap_pairSwap]

/-- Joining and then splitting gives the whole pairs back (section 3, law 4). -/
theorem State.splitHalfwords_after_join {s : State} {g : Byte → Byte} (hg : ∀ b, g (g b) = b) {d c : Word}
    (hc : c.toNat = s.count / 2) (hin : InRange s s.src s.count ∧ InRange s s.dst (2 * (s.count / 2)))
    (hd : InRange s d.toNat (2 * (s.count / 2))) :
    let next := (s.joinBytes g).aimed s.opnd.dstAddr d c
    (next.splitHalfwords g).status.err = false ∧
      ∀ k, k < 2 * (s.count / 2) → (next.splitHalfwords g).byteAt (d.toNat + k) = s.byteAt (s.src + k) := by
  intro next
  have hbuf := (State.joinBytes_completed g hin).1.bufBytes
  have hsplit : InRange next next.src (2 * next.count) ∧ InRange next next.dst (2 * next.count) := by
    rw [State.aimed_count, hc]
    exact ⟨hin.2.aimed _ _ _ hbuf, hd.aimed _ _ _ hbuf⟩
  refine ⟨(State.splitHalfwords_completed g hsplit).1.err, fun k hk => ?_⟩
  calc (next.splitHalfwords g).byteAt (d.toNat + k)
      = g ((s.joinBytes g).byteAt (s.dst + pairSwap k)) :=
        State.splitHalfwords_byteAt g hsplit (by rwa [State.aimed_count, hc])
    _ = g (g (s.byteAt (s.src + pairSwap (pairSwap k)))) := by
        rw [State.joinBytes_byteAt g hin (pairSwap_lt hk)]
    _ = s.byteAt (s.src + k) := by rw [hg, pairSwap_pairSwap]

/-- Mapping the bytes twice maps them once by the composition. -/
theorem State.mapBytes_after_map {s : State} (f g : Byte → Byte) {d : Word}
    (hin : InRange s s.src s.count ∧ InRange s s.dst s.count) (hd : InRange s d.toNat s.count) :
    let next := (s.mapBytes g).aimed s.opnd.dstAddr d s.opnd.count
    (next.mapBytes f).status.err = false ∧
      ∀ k, k < s.count → (next.mapBytes f).byteAt (d.toNat + k) = f (g (s.byteAt (s.src + k))) := by
  intro next
  obtain ⟨hdone, hbytes⟩ := State.mapBytes_completed g hin
  obtain ⟨hdone', hbytes'⟩ := State.mapBytes_completed (s := next) f
    ⟨hin.2.aimed _ _ _ hdone.bufBytes, hd.aimed _ _ _ hdone.bufBytes⟩
  exact ⟨hdone'.err, fun k hk => (hbytes' k hk).trans (congrArg f (hbytes k hk))⟩

/-- Splitting and then mapping the bytes is splitting under the map (section 2, int16 to uint8). -/
theorem State.mapBytes_after_split {s : State} (g : Byte → Byte) {d c : Word} (hc : c.toNat = 2 * s.count)
    (hin : InRange s s.src (2 * s.count) ∧ InRange s s.dst (2 * s.count)) (hd : InRange s d.toNat (2 * s.count)) :
    let next := (s.splitHalfwords id).aimed s.opnd.dstAddr d c
    Completed next (next.mapBytes g) d.toNat (2 * s.count) (2 * s.count) false ∧
      ∀ k, k < 2 * s.count → (next.mapBytes g).byteAt (d.toNat + k) = g (s.byteAt (s.src + pairSwap k)) := by
  intro next
  have hbuf := (State.splitHalfwords_completed id hin).1.bufBytes
  have hmap : InRange next next.src next.count ∧ InRange next next.dst next.count := by
    rw [State.aimed_count, hc]
    exact ⟨hin.2.aimed _ _ _ hbuf, hd.aimed _ _ _ hbuf⟩
  obtain ⟨hdone, hbytes⟩ := State.mapBytes_completed g hmap
  rw [State.aimed_count, hc] at hdone hbytes
  exact ⟨hdone, fun k hk => (hbytes k hk).trans (congrArg g (State.splitHalfwords_byteAt id hin hk))⟩

/-- Mapping the bytes and then joining is joining under the map (section 2, uint8 to int16). -/
theorem State.joinBytes_after_map {s : State} (g : Byte → Byte) {d : Word}
    (hin : InRange s s.src s.count ∧ InRange s s.dst s.count) (hd : InRange s d.toNat (2 * (s.count / 2))) :
    let next := (s.mapBytes g).aimed s.opnd.dstAddr d s.opnd.count
    Completed next (next.joinBytes id) d.toNat (2 * (s.count / 2)) (s.count / 2) (decide (s.count % 2 = 1)) ∧
      ∀ k, k < 2 * (s.count / 2) → (next.joinBytes id).byteAt (d.toNat + k) = g (s.byteAt (s.src + pairSwap k)) := by
  intro next
  obtain ⟨hdone, hbytes⟩ := State.mapBytes_completed g hin
  have hjoin : InRange next next.src next.count ∧ InRange next next.dst (2 * (next.count / 2)) :=
    ⟨hin.2.aimed _ _ _ hdone.bufBytes, hd.aimed _ _ _ hdone.bufBytes⟩
  refine ⟨(State.joinBytes_completed id hjoin).1, fun k hk => (State.joinBytes_byteAt id hjoin hk).trans ?_⟩
  have hswap : pairSwap k < s.count := (pairSwap_lt hk).trans_le (Nat.mul_div_le s.count 2)
  exact hbytes _ hswap

/-! ### The statements -/

/-- Settles O36: law 1, split and join under the identity. -/
theorem int16SurvivesSplitThenJoin : Obligations.Int16SurvivesSplitThenJoin := by
  unfold Obligations.Int16SurvivesSplitThenJoin
  intro s d c hc hsrc hdst hd
  obtain ⟨hdone, hbytes⟩ := State.joinBytes_after_split (g := id) (fun _ => rfl) hc ⟨hsrc, hdst⟩ hd
  refine ⟨_, _, rfl, rfl, hdone.err, hdone.trunc_eq, hdone.resultCount.trans ?_, hbytes⟩
  exact BitVec.ofNat_toNat 32 s.opnd.count

/-- Settles O37: both commands map every byte by flip, which is its own inverse. -/
theorem bytesSurviveBothSignChanges : Obligations.BytesSurviveBothSignChanges := by
  unfold Obligations.BytesSurviveBothSignChanges
  intro s d hsrc hdst hd
  obtain ⟨herr, hbytes⟩ := State.mapBytes_after_map flip flip ⟨hsrc, hdst⟩ hd
  simp only [flip_flip] at hbytes
  exact ⟨⟨_, _, rfl, rfl, herr, hbytes⟩, ⟨_, _, rfl, rfl, herr, hbytes⟩⟩

/-- Settles O38: law 3, split and join under flip. -/
theorem int16SurvivesTheUint8Chain : Obligations.Int16SurvivesTheUint8Chain := by
  unfold Obligations.Int16SurvivesTheUint8Chain
  intro s d c hc hsrc hdst hd
  obtain ⟨hdone, hbytes⟩ := State.joinBytes_after_split flip_flip hc ⟨hsrc, hdst⟩ hd
  exact ⟨_, _, rfl, rfl, hdone.err, hdone.trunc_eq, hbytes⟩

/-- Settles O39: law 4, join and split under the type's byte map. -/
theorem wideningThenNarrowingKeepsWholePairs : Obligations.WideningThenNarrowingKeepsWholePairs := by
  unfold Obligations.WideningThenNarrowingKeepsWholePairs
  intro s ty d c hty hc hsrc hdst hd
  obtain ⟨g, hg, hwiden, hnarrow⟩ : ∃ g : Byte → Byte, (∀ b, g (g b) = b) ∧
      (∀ s, exec (.cvt ty 2) s = .next (s.joinBytes g)) ∧ ∀ s, exec (.cvt 2 ty) s = .next (s.splitHalfwords g) := by
    rcases hty with rfl | rfl
    · exact ⟨id, fun _ => rfl, fun _ => rfl, fun _ => rfl⟩
    · exact ⟨flip, flip_flip, fun _ => rfl, fun _ => rfl⟩
  obtain ⟨herr, hbytes⟩ := State.splitHalfwords_after_join hg hc ⟨hsrc, hdst⟩ hd
  exact ⟨_, _, hwiden s, hnarrow _, (State.joinBytes_completed g ⟨hsrc, hdst⟩).1.trunc_eq, herr, hbytes⟩

/-- Settles O33: the chained rows of CVT are split and join under flip. -/
theorem chainedRowsEqualTheirTwoCommands : Obligations.ChainedRowsEqualTheirTwoCommands := by
  unfold Obligations.ChainedRowsEqualTheirTwoCommands
  refine ⟨fun s d c hc hsrc hdst hd => ?narrowing, fun s d hsrc hdst hd => ?widening⟩
  case narrowing =>
    have hin : InRange (s.aimed s.opnd.srcAddr d s.opnd.count) s.src (2 * s.count) ∧
        InRange (s.aimed s.opnd.srcAddr d s.opnd.count) d.toNat (2 * s.count) := ⟨hsrc, hd⟩
    obtain ⟨hdone, hbytes⟩ := State.mapBytes_after_split flip hc ⟨hsrc, hdst⟩ hd
    have hrow := (State.splitHalfwords_completed flip hin).1
    exact ⟨_, _, _, rfl, rfl, rfl, hdone.err, hrow.err, hdone.resultCount.trans hrow.resultCount.symm, fun k hk =>
      (hbytes k hk).trans (State.splitHalfwords_byteAt flip hin hk).symm⟩
  case widening =>
    have hin : InRange (s.aimed s.opnd.srcAddr d s.opnd.count) s.src s.count ∧
        InRange (s.aimed s.opnd.srcAddr d s.opnd.count) d.toNat (2 * (s.count / 2)) := ⟨hsrc, hd⟩
    obtain ⟨hdone, hbytes⟩ := State.joinBytes_after_map flip ⟨hsrc, hdst⟩ hd
    have hrow := (State.joinBytes_completed flip hin).1
    exact ⟨_, _, _, rfl, rfl, rfl, hdone.status.trans hrow.status.symm, hrow.err,
      hdone.resultCount.trans hrow.resultCount.symm, fun k hk =>
      (hbytes k hk).trans (State.joinBytes_byteAt flip hin hk).symm⟩

end Sys2Proof.Machine

/-! SUPPORT. The laws of the bit-plane and frame families (41_bitplane.md section 3, 42_framecodec.md section 3), from
what GETBP, SETBP, SETBPP, FENC and FDEC do to each element. -/

namespace Sys2Proof.Machine

/-! ### Elements and bytes -/

theorem element_byte_lt {i j n size : Nat} (hi : i < n) (hj : j < size) : i * size + j < n * size :=
  calc i * size + j < (i + 1) * size := by rw [Nat.succ_mul]; omega
    _ ≤ n * size := Nat.mul_le_mul_right size hi

/-- Rows of n elements with the same bits are the same bytes. -/
theorem State.byteAt_of_elements {s t : State} {base base' n size : Nat} (hsize : size ≤ 4)
    (h : ∀ i b, i < n → b < 8 * size →
      (t.memRead (base + i * size) size).getLsbD b = (s.memRead (base' + i * size) size).getLsbD b)
    {k : Nat} (hk : k < n * size) : t.byteAt (base + k) = s.byteAt (base' + k) := by
  have hi : k / size < n := Nat.div_lt_of_lt_mul (by rwa [Nat.mul_comm])
  have hj : k % size < size := Nat.mod_lt k (Nat.pos_of_mul_pos_left (Nat.zero_lt_of_lt hk))
  apply BitVec.eq_of_getLsbD_eq
  intro m hm
  have hbit := h (k / size) (8 * (k % size) + m) hi (by omega)
  rw [State.getLsbD_memRead, State.getLsbD_memRead, decide_eq_true (by omega), Bool.true_and, Bool.true_and,
    show (8 * (k % size) + m) / 8 = k % size by omega, show (8 * (k % size) + m) % 8 = m by omega, Nat.add_assoc,
    Nat.add_assoc, Nat.div_add_mod'] at hbit
  exact hbit

theorem State.pixB_le (s : State) : s.pixB ≤ 4 := by
  unfold State.pixB
  split <;> decide

/-- A byte is its bits, the highest first. -/
theorem byte_eq_of_bits {x y : Byte} (h : ∀ k, k < 8 → x.getLsbD (7 - k) = y.getLsbD (7 - k)) : x = y := by
  apply BitVec.eq_of_getLsbD_eq
  intro i hi
  have hbit := h (7 - i) (by omega)
  rwa [show 7 - (7 - i) = i by omega] at hbit

/-! ### What each command does within its checks -/

section
variable {s : State} {p : Nat} (hp : p < s.pixW)
include hp

theorem getbp_elements (hin : InRange s s.src (s.count * s.pixB) ∧ InRange s s.dst (s.count * s.pixB)) :
    ∃ t, exec (.getbp p) s = .next t ∧ t.status.err = false ∧ ∀ i, i < s.count →
      t.memRead (s.dst + i * s.pixB) s.pixB = if (s.memRead (s.src + i * s.pixB) s.pixB).getLsbD p then 1 else 0 := by
  obtain ⟨-, -, hspec⟩ := getbpReadsThePlane
  obtain ⟨-, hplane⟩ := hspec s p
  obtain ⟨hinside, -⟩ := hplane hp
  obtain ⟨t, hexec, hdone, hbits⟩ := hinside hin
  refine ⟨t, hexec, hdone.err, fun i hi => ?_⟩
  rw [← bit_eq_ite]
  exact BitVec.eq_of_toNat_eq ((hbits i hi).trans (toNat_bit _ p).symm)

theorem setbp_elements (hin : InRange s s.src (s.count * s.pixB) ∧ InRange s s.val (s.count * s.pixB) ∧
    InRange s s.dst (s.count * s.pixB)) :
    ∃ t, exec (.setbp p) s = .next t ∧ Completed s t s.dst (s.count * s.pixB) s.count false ∧
      ∀ i b, i < s.count → b < s.pixW → (t.memRead (s.dst + i * s.pixB) s.pixB).getLsbD b =
        if b = p then decide (s.memRead (s.val + i * s.pixB) s.pixB ≠ 0)
        else (s.memRead (s.src + i * s.pixB) s.pixB).getLsbD b := by
  obtain ⟨-, -, hspec⟩ := setbpWritesThePlane
  obtain ⟨-, hplane⟩ := hspec s p
  obtain ⟨hinside, -⟩ := hplane hp
  exact hinside hin

theorem setbpp_elements (hin : InRange s s.src (s.count * s.pixB) ∧ InRange s s.val (s.count * s.pixB) ∧
    InRange s s.dst (s.count * s.pixB)) :
    ∃ t, exec (.setbpp p) s = .next t ∧ Completed s t s.dst (s.count * s.pixB) s.count false ∧
      ∀ i b, i < s.count → b < s.pixW → (t.memRead (s.dst + i * s.pixB) s.pixB).getLsbD b =
        if b = p ∧ i < s.changed then decide (s.memRead (s.val + i * s.pixB) s.pixB ≠ 0)
        else (s.memRead (s.src + i * s.pixB) s.pixB).getLsbD b := by
  obtain ⟨-, -, hspec⟩ := setbppWritesTheLeadingElements
  obtain ⟨-, hplane⟩ := hspec s p
  obtain ⟨hinside, -⟩ := hplane hp
  exact hinside hin

variable (hc : s.channels ≠ 0) (hdvd : s.count % s.channels = 0)
include hc hdvd

theorem fenc_elements
    (hin : InRange s s.src (s.count * s.pixB) ∧ InRange s s.val s.msgLen ∧ InRange s s.dst (s.count * s.pixB)) :
    ∃ t, exec (.fenc p) s = .next t ∧
      Completed s t s.dst (s.count * s.pixB) (min s.msgLen (s.count / 8))
        (decide (8 * s.msgLen > s.count / 8 * 8)) ∧
      ∀ i b, i < s.count → b < s.pixW → (t.memRead (s.dst + i * s.pixB) s.pixB).getLsbD b =
        if b = p ∧ i < min (8 * s.msgLen) (s.count / 8 * 8) then (s.byteAt (s.val + i / 8)).getLsbD (7 - i % 8)
        else (s.memRead (s.src + i * s.pixB) s.pixB).getLsbD b := by
  obtain ⟨-, -, hspec⟩ := fencEmbedsTheMessage
  obtain ⟨-, hplane⟩ := hspec s p
  obtain ⟨-, hshape⟩ := hplane hp
  obtain ⟨hinside, -⟩ := hshape hc hdvd
  exact hinside hin

theorem fdec_bytes (hin : InRange s s.src (s.count * s.pixB) ∧ InRange s s.dst (s.count / 8)) :
    ∃ t, exec (.fdec p) s = .next t ∧ t.status.err = false ∧ t.resultCount.toNat = s.count / 8 ∧
      ∀ j k, j < s.count / 8 → k < 8 →
        (t.byteAt (s.dst + j)).getLsbD (7 - k) = (s.memRead (s.src + (8 * j + k) * s.pixB) s.pixB).getLsbD p := by
  obtain ⟨-, -, hspec⟩ := fdecExtractsTheMessage
  obtain ⟨-, hplane⟩ := hspec s p
  obtain ⟨-, hshape⟩ := hplane hp
  obtain ⟨hinside, -⟩ := hshape hc hdvd
  obtain ⟨t, hexec, hdone, hbits⟩ := hinside hin
  have hcount : s.count < 2 ^ 32 := s.opnd.count.isLt
  refine ⟨t, hexec, hdone.err, ?_, hbits⟩
  rw [hdone.resultCount, BitVec.toNat_ofNat, Nat.mod_eq_of_lt (by omega)]

end

/-! ### A reading command aimed at what another wrote -/

/-- `t` has the registers of `s` that a command leaves as they are. -/
def KeepsRegisters (s t : State) : Prop := t.pixw = s.pixw ∧ t.opnd = s.opnd ∧ t.bufBytes = s.bufBytes

theorem KeepsRegisters.refl (s : State) : KeepsRegisters s s := ⟨rfl, rfl, rfl⟩

theorem Completed.keepsRegisters {s t : State} {base len n : Nat} {trunc : Bool} (h : Completed s t base len n trunc) :
    KeepsRegisters s t := by
  obtain ⟨-, -, -, hpixw, hopnd, -, -, hbuf, -⟩ := h
  exact ⟨hpixw, hopnd, hbuf⟩

section
variable {s t : State} {p : Nat} (x d : Word) (ht : KeepsRegisters s t) (hp : p < s.pixW)
  (hx : InRange s x.toNat (s.count * s.pixB))
include ht hp hx

theorem getbp_aimed (hd : InRange s d.toNat (s.count * s.pixB)) :
    ∃ u, exec (.getbp p) (t.aimed x d s.opnd.count) = .next u ∧ u.status.err = false ∧ ∀ i, i < s.count →
      u.memRead (d.toNat + i * s.pixB) s.pixB =
        if (t.memRead (x.toNat + i * s.pixB) s.pixB).getLsbD p then 1 else 0 := by
  obtain ⟨hpixw, -, hbuf⟩ := ht
  obtain ⟨hW, hB⟩ := State.pix_of_pixw (s := s) (t := t.aimed x d s.opnd.count) hpixw
  obtain ⟨u, hexec, herr, hbits⟩ := getbp_elements (s := t.aimed x d s.opnd.count) (p := p) (by rwa [hW])
    (by rw [hB]; exact ⟨hx.aimed x d _ hbuf, hd.aimed x d _ hbuf⟩)
  simp only [hB, State.memRead_aimed] at hbits
  exact ⟨u, hexec, herr, hbits⟩

theorem fdec_aimed (hc : s.channels ≠ 0) (hdvd : s.count % s.channels = 0) (hd : InRange s d.toNat (s.count / 8)) :
    ∃ u, exec (.fdec p) (t.aimed x d s.opnd.count) = .next u ∧ u.status.err = false ∧
      u.resultCount.toNat = s.count / 8 ∧ ∀ j k, j < s.count / 8 → k < 8 →
        (u.byteAt (d.toNat + j)).getLsbD (7 - k) =
          (t.memRead (x.toNat + (8 * j + k) * s.pixB) s.pixB).getLsbD p := by
  obtain ⟨hpixw, hopnd, hbuf⟩ := ht
  obtain ⟨hW, hB⟩ := State.pix_of_pixw (s := s) (t := t.aimed x d s.opnd.count) hpixw
  have hchannels : (t.aimed x d s.opnd.count).channels = s.channels := congrArg (·.channels.toNat) hopnd
  obtain ⟨u, hexec, herr, hn, hbits⟩ := fdec_bytes (s := t.aimed x d s.opnd.count) (p := p) (by rwa [hW])
    (by rwa [hchannels]) (by rwa [hchannels])
    (by rw [hB]; exact ⟨hx.aimed x d _ hbuf, hd.aimed x d _ hbuf⟩)
  simp only [hB, State.memRead_aimed] at hbits
  exact ⟨u, hexec, herr, hn, hbits⟩

end

/-- What FDEC of plane q reads after FENC of plane p: the message, as far as it goes and where the planes are the same,
and else the source's own plane. -/
theorem fdec_after_fenc {s : State} {p q : Nat} {d : Word} (hp : p < s.pixW) (hq : q < s.pixW) (hc : s.channels ≠ 0)
    (hdvd : s.count % s.channels = 0)
    (hin : InRange s s.src (s.count * s.pixB) ∧ InRange s s.val s.msgLen ∧ InRange s s.dst (s.count * s.pixB))
    (hd : InRange s d.toNat (s.count / 8)) :
    ∃ t u, exec (.fenc p) s = .next t ∧ exec (.fdec q) (t.aimed s.opnd.dstAddr d s.opnd.count) = .next u ∧
      t.status.err = false ∧ t.status.trunc = decide (8 * s.msgLen > s.count / 8 * 8) ∧
      u.status.err = false ∧ u.resultCount.toNat = s.count / 8 ∧
      ∀ j k, j < s.count / 8 → k < 8 → (u.byteAt (d.toNat + j)).getLsbD (7 - k) =
        if q = p ∧ j < s.msgLen then (s.byteAt (s.val + j)).getLsbD (7 - k)
        else (s.memRead (s.src + (8 * j + k) * s.pixB) s.pixB).getLsbD q := by
  obtain ⟨t, hfenc, hdone, hembedded⟩ := fenc_elements hp hc hdvd hin
  obtain ⟨-, -, hdst⟩ := hin
  obtain ⟨u, hfdec, herr, hn, hread⟩ := fdec_aimed s.opnd.dstAddr d hdone.keepsRegisters hq hdst hc hdvd hd
  refine ⟨t, u, hfenc, hfdec, hdone.err, hdone.trunc_eq, herr, hn, fun j k hj hk => ?_⟩
  have hmessage : 8 * j + k < min (8 * s.msgLen) (s.count / 8 * 8) ↔ j < s.msgLen := by omega
  refine (hread j k hj hk).trans ((hembedded (8 * j + k) q (by omega) hq).trans ?_)
  rw [show (8 * j + k) / 8 = j by omega, show (8 * j + k) % 8 = k by omega]
  simp only [hmessage]

/-! ### Planes written in place -/

/-- `t` has the registers of `s` that a command leaves as they are, VAL_ADDR aside. -/
def KeepsRegistersButVal (s t : State) : Prop := ∀ v, KeepsRegisters (s.withVal v) (t.withVal v)

theorem KeepsRegistersButVal.refl (s : State) : KeepsRegistersButVal s s := fun _ => .refl _

theorem KeepsRegistersButVal.after {s t u : State} {v : Word} (h : KeepsRegistersButVal s t)
    (hu : KeepsRegisters (t.withVal v) u) : KeepsRegistersButVal s u := by
  intro w
  obtain ⟨hpixw, hopnd, hbuf⟩ := h w
  obtain ⟨hpixw', hopnd', hbuf'⟩ := hu
  exact ⟨hpixw'.trans hpixw, (congrArg (fun o : OperandRegs => { o with valAddr := w }) hopnd').trans hopnd,
    hbuf'.trans hbuf⟩

section
variable {s : State} (hplace : s.opnd.dstAddr = s.opnd.srcAddr) (hsrc : InRange s s.src (s.count * s.pixB))
include hplace hsrc

/-- SETBP in place, on a state with the registers of `s`: plane p of each element is set, no byte outside the buffer
changes. -/
theorem setbp_in_place {t : State} {p : Nat} {v : Word} (ht : KeepsRegistersButVal s t) (hp : p < s.pixW)
    (hv : InRange s v.toNat (s.count * s.pixB)) :
    ∃ u, exec (.setbp p) (t.withVal v) = .next u ∧ u.status.err = false ∧ KeepsRegistersButVal s u ∧
      (∀ a, ¬(s.src ≤ a ∧ a < s.src + s.count * s.pixB) → u.byteAt a = t.byteAt a) ∧
      ∀ i b, i < s.count → b < s.pixW → (u.memRead (s.src + i * s.pixB) s.pixB).getLsbD b =
        if b = p then decide (t.memRead (v.toNat + i * s.pixB) s.pixB ≠ 0)
        else (t.memRead (s.src + i * s.pixB) s.pixB).getLsbD b := by
  obtain ⟨hpixw, hopnd, hbuf⟩ := ht v
  obtain ⟨hW, hB⟩ := State.pix_of_pixw (s := s) (t := t.withVal v) hpixw
  have hcount : (t.withVal v).count = s.count := congrArg (·.count.toNat) hopnd
  have hfrom : (t.withVal v).src = s.src := congrArg (·.srcAddr.toNat) hopnd
  have hval : (t.withVal v).val = v.toNat := rfl
  have hto : (t.withVal v).dst = s.src := (congrArg (·.dstAddr.toNat) hopnd).trans (congrArg BitVec.toNat hplace)
  have hsrc' : InRange (t.withVal v) s.src (s.count * s.pixB) := hsrc.of_bufBytes hbuf
  obtain ⟨u, hexec, hdone, hbits⟩ := setbp_elements (s := t.withVal v) (p := p) (by rwa [hW])
    (by rw [hcount, hfrom, hval, hto, hB]; exact ⟨hsrc', hv.of_bufBytes hbuf, hsrc'⟩)
  have hu := ht.after hdone.keepsRegisters
  simp only [hcount, hfrom, hval, hto, hW, hB, State.memRead_withVal] at hdone hbits
  obtain ⟨-, -, hframe, -⟩ := id hdone
  exact ⟨u, hexec, hdone.err, hu, hframe, hbits⟩

/-- SETBP of plane p and then of plane q, the second plane values apart from the buffer: each element has both planes,
the later over the earlier. -/
theorem setbp_after_setbp {p q : Nat} {v w : Word} (hp : p < s.pixW) (hq : q < s.pixW)
    (hv : InRange s v.toNat (s.count * s.pixB)) (hw : InRange s w.toNat (s.count * s.pixB))
    (hapart : w.toNat + s.count * s.pixB ≤ s.src ∨ s.src + s.count * s.pixB ≤ w.toNat) :
    ∃ t u, exec (.setbp p) (s.withVal v) = .next t ∧ exec (.setbp q) (t.withVal w) = .next u ∧
      u.status.err = false ∧
      (∀ a, ¬(s.src ≤ a ∧ a < s.src + s.count * s.pixB) → u.byteAt a = s.byteAt a) ∧
      ∀ i b, i < s.count → b < s.pixW → (u.memRead (s.src + i * s.pixB) s.pixB).getLsbD b =
        if b = q then decide (s.memRead (w.toNat + i * s.pixB) s.pixB ≠ 0)
        else if b = p then decide (s.memRead (v.toNat + i * s.pixB) s.pixB ≠ 0)
        else (s.memRead (s.src + i * s.pixB) s.pixB).getLsbD b := by
  obtain ⟨t, hexec, -, ht, hframe, hbits⟩ := setbp_in_place hplace hsrc (.refl s) hp hv
  obtain ⟨u, hexec', herr, -, hframe', hbits'⟩ := setbp_in_place hplace hsrc ht hq hw
  refine ⟨t, u, hexec, hexec', herr, fun a ha => (hframe' a ha).trans (hframe a ha), fun i b hi hb => ?_⟩
  have hvalues : t.memRead (w.toNat + i * s.pixB) s.pixB = s.memRead (w.toNat + i * s.pixB) s.pixB := by
    apply State.memRead_congr
    intro k hk
    have := element_byte_lt hi hk
    exact hframe _ (by omega)
  rw [hbits' i b hi hb, hvalues, hbits i b hi hb]

end

/-! ### The statements -/

/-- Settles O45: GETBP reads bit p of each element SETBP wrote. -/
theorem getbpAfterSetbpGivesTheTruthOfTheValues : Obligations.GetbpAfterSetbpGivesTheTruthOfTheValues := by
  unfold Obligations.GetbpAfterSetbpGivesTheTruthOfTheValues
  intro s p d hp hsrc hval hdst hd
  obtain ⟨t, hset, hdone, hbits⟩ := setbp_elements hp ⟨hsrc, hval, hdst⟩
  obtain ⟨u, hget, herr, hread⟩ := getbp_aimed s.opnd.dstAddr d hdone.keepsRegisters hp hdst hd
  refine ⟨t, u, hset, hget, herr, fun i hi => (hread i hi).trans ?_⟩
  have hbit := hbits i p hi hp
  rw [if_pos rfl, State.dst] at hbit
  rw [hbit]
  exact (truth_eq _).symm

/-- Settles O46: as O45, with SETBPP's split at CHANGED. -/
theorem getbpAfterSetbppGivesTheHybridPlane : Obligations.GetbpAfterSetbppGivesTheHybridPlane := by
  unfold Obligations.GetbpAfterSetbppGivesTheHybridPlane
  intro s p d hp hsrc hval hdst hd
  obtain ⟨t, hset, hdone, hbits⟩ := setbpp_elements hp ⟨hsrc, hval, hdst⟩
  obtain ⟨u, hget, herr, hread⟩ := getbp_aimed s.opnd.dstAddr d hdone.keepsRegisters hp hdst hd
  refine ⟨t, u, hset, hget, herr, fun i hi => (hread i hi).trans ?_⟩
  have hbit := hbits i p hi hp
  by_cases hchanged : i < s.changed
  · rw [if_pos ⟨rfl, hchanged⟩, State.dst] at hbit
    rw [if_pos hchanged, hbit]
    exact (truth_eq _).symm
  · rw [if_neg fun h => hchanged h.2, State.dst] at hbit
    rw [if_neg hchanged, hbit]

/-- Settles O47: every bit of every element is the source's, plane p because the values agree with it. -/
theorem setbpOfTheOwnPlaneIsTheSource : Obligations.SetbpOfTheOwnPlaneIsTheSource := by
  unfold Obligations.SetbpOfTheOwnPlaneIsTheSource
  intro s p hp hsrc hval hdst hown
  obtain ⟨t, hset, hdone, hbits⟩ := setbp_elements hp ⟨hsrc, hval, hdst⟩
  refine ⟨t, hset, hdone.err, fun k hk => State.byteAt_of_elements s.pixB_le (fun i b hi hb => ?_) hk⟩
  rw [hbits i b hi (by rwa [State.pixW_eq]), hown i hi]
  split
  · next hbp => rw [hbp]
  · rfl

/-- Settles O48: in either order each element ends with both planes, and no other byte changes. -/
theorem distinctPlaneWritesCommute : Obligations.DistinctPlaneWritesCommute := by
  unfold Obligations.DistinctPlaneWritesCommute
  intro s p q v w hp hq hpq hplace hsrc hv hw hvapart hwapart
  obtain ⟨t₁, u₁, hfirst₁, hsecond₁, herr₁, hframe₁, hbits₁⟩ := setbp_after_setbp hplace hsrc hp hq hv hw hwapart
  obtain ⟨t₂, u₂, hfirst₂, hsecond₂, herr₂, hframe₂, hbits₂⟩ := setbp_after_setbp hplace hsrc hq hp hw hv hvapart
  refine ⟨t₁, u₁, t₂, u₂, hfirst₁, hsecond₁, hfirst₂, hsecond₂, herr₁, herr₂, fun a => ?_⟩
  by_cases ha : s.src ≤ a ∧ a < s.src + s.count * s.pixB
  · rw [show a = s.src + (a - s.src) by omega]
    apply State.byteAt_of_elements (n := s.count) s.pixB_le (fun i b hi hb => ?_) (by omega)
    rw [← State.pixW_eq] at hb
    rw [hbits₁ i b hi hb, hbits₂ i b hi hb]
    by_cases hbp : b = p
    · rw [if_neg (fun hbq => hpq (hbp.symm.trans hbq)), if_pos hbp, if_pos hbp]
    · rw [if_neg hbp, if_neg hbp]
  · exact (hframe₁ a ha).trans (hframe₂ a ha).symm

/-- Settles O51: every message byte is below the capacity, so FDEC reads it back. -/
theorem embeddedMessageComesBack : Obligations.EmbeddedMessageComesBack := by
  unfold Obligations.EmbeddedMessageComesBack
  intro s p d hp hc hdvd hsrc hval hdst hd hfits
  obtain ⟨t, u, hfenc, hfdec, -, htrunc, herr, hn, hbits⟩ := fdec_after_fenc hp hp hc hdvd ⟨hsrc, hval, hdst⟩ hd
  refine ⟨t, u, hfenc, hfdec, htrunc.trans (decide_eq_false (by omega)), herr, hn, fun j hj => ?_,
    fun j k hj hlt hk => ?_⟩
  · refine byte_eq_of_bits fun k hk => ?_
    rw [hbits j k (by omega) hk, if_pos ⟨rfl, hj⟩]
  · rw [hbits j k hlt hk, if_neg fun h => Nat.not_lt.mpr hj h.2]

/-- Settles O52: every byte of the capacity is one of the message. -/
theorem oversizedMessageIsTruncated : Obligations.OversizedMessageIsTruncated := by
  unfold Obligations.OversizedMessageIsTruncated
  intro s p d hp hc hdvd hsrc hval hdst hd hover
  obtain ⟨t, u, hfenc, hfdec, hterr, htrunc, herr, hn, hbits⟩ :=
    fdec_after_fenc hp hp hc hdvd ⟨hsrc, hval, hdst⟩ hd
  refine ⟨t, u, hfenc, hfdec, hterr, htrunc.trans (decide_eq_true hover), herr, hn, fun j hj => ?_⟩
  refine byte_eq_of_bits fun k hk => ?_
  rw [hbits j k hj hk, if_pos ⟨rfl, by omega⟩]

/-- Settles O53: FDEC of plane q reads the source's plane q in both images. -/
theorem embeddingLeavesOtherPlanesReadable : Obligations.EmbeddingLeavesOtherPlanesReadable := by
  unfold Obligations.EmbeddingLeavesOtherPlanesReadable
  intro s p q d hp hq hpq hc hdvd hsrc hval hdst hd
  obtain ⟨t, u, hfenc, hfdec, -, -, herr, -, hbits⟩ := fdec_after_fenc hp hq hc hdvd ⟨hsrc, hval, hdst⟩ hd
  obtain ⟨r, hsource, hrerr, -, hrbits⟩ := fdec_aimed s.opnd.srcAddr d (.refl s) hq hsrc hc hdvd hd
  refine ⟨t, u, r, hfenc, hfdec, hsource, herr, hrerr, fun j hj => byte_eq_of_bits fun k hk => ?_⟩
  rw [hbits j k hj hk, if_neg fun h => hpq h.1.symm, hrbits j k hj hk]
  rfl

end Sys2Proof.Machine
